-- ==== Sys2Proof/Word.lean ====
section
/-! DEFINITION. The bit-vector types of the block (00_scope.md R7): bytes, the 32-bit CRC and window values, and the
container of a target word. A target word is `8*W` bits with `W` in {4, 8}; it is held in 64 bits, and for `W = 4` the
upper half is zero (an invariant of every step, notes/assumptions/1.md). -/

namespace Sys2Proof

/-- A byte of a stream or of memory (R7: "Every byte is 8 bits"). -/
abbrev Byte := BitVec 8

/-- A 32-bit value: the CRC accumulator, the seek window, the magic constant (R7). -/
abbrev Word32 := BitVec 32

/-- The container of an `8*W`-bit value: `len`, `addr`, `j`, `acc`, `wr_addr`, `wr_data`, `entry` (R7). -/
abbrev Word := BitVec 64

end Sys2Proof
end

