-- ==== Sys2Proof/Config.lean ====
section
/-! DEFINITION. The parameters of the block (00_scope.md R6), fixed for its life, and its constants (R8). The spec
leaves no result of a step open, so there is no opaque value here. -/

namespace Sys2Proof

/-- `W`: bytes in one target word, 4 or 8 (R6). -/
inductive WordSize where
  | w4
  | w8
deriving DecidableEq, Repr

/-- `ENDIAN`: the target's byte order (R6). -/
inductive Endian where
  | le
  | be
deriving DecidableEq, Repr

/-- `MISALIGNED_WRITE`: what the memory port does with a misaligned word write (R6, 20_memory.md R66). -/
inductive MisalignedWrite where
  | split
  | fault
deriving DecidableEq, Repr

/-- The three parameters of R6 together. -/
structure Cfg where
  word       : WordSize
  endian     : Endian
  misaligned : MisalignedWrite
deriving DecidableEq, Repr

/-- The number `W` of R6. -/
def Cfg.W (c : Cfg) : Nat :=
  match c.word with
  | .w4 => 4
  | .w8 => 8

/-- The word and address width `AW = 8*W` in bits (R7). -/
def Cfg.bits (c : Cfg) : Nat := 8 * c.W

/-- The parameters `State.reset` takes. `W = 4` is R6's default and `fault` is what R66 gives a model that does not know
the platform. DESIGN CHOICE (unsafe, notes/assumptions/2.md): R6 leaves `ENDIAN` open; `LE` is taken here only so that
the machine can run from reset, and every statement holds for both byte orders. -/
def Cfg.default : Cfg := { word := .w4, endian := .le, misaligned := .fault }

/-- `MAGIC` (R8). -/
def magic : Word32 := 0x55AA55AA

/-- `POLY_R`, the reversed CRC-32 polynomial (R8). -/
def polyR : Word32 := 0xEDB88320

/-- `CRC_INIT` (R8). -/
def crcInit : Word32 := 0xFFFFFFFF

end Sys2Proof
end

