-- ==== Sys2Proof/Syntax.lean ====
section
/-! DEFINITION. The instructions of the block: one constructor per row of spec/opcode_table.json. R3 says what counts as
an instruction here: the two packet kinds, the step selectors (FSM state and port event), and the operation codes of the
CRC sub-unit. An RX step carries the byte it takes, its only operand (30_encoding.md R96). -/

namespace Sys2Proof

/-- The FSM state register `st` (10_state.md R21), one constructor per code 0 to 7; `reserved` is code 7. -/
inductive Fsm where
  | seek
  | hdr
  | pay
  | wr
  | ack
  | chain
  | done
  | reserved
deriving DecidableEq, Repr

/-- The port event `ev` that completes in a step (30_encoding.md R98), one constructor per code 0 to 3. -/
inductive Event where
  | rx
  | tx
  | mem
  | restart
deriving DecidableEq, Repr

/-- The operation code of the CRC sub-unit (30_encoding.md R99), one constructor per code 0 to 3. -/
inductive CrcOp where
  | hold
  | init
  | loadm
  | upd
deriving DecidableEq, Repr

/-- The three encoded formats an instruction can come in (30_encoding.md, opening list). -/
inductive Fmt where
  | frame
  | step
  | crcop
deriving DecidableEq, Repr

/-- The instructions, in the order of spec/opcode_table.json. -/
inductive Instr where
  /-- `PKT.DATA`: a packet with `length != 0` (R93). -/
  | pktData (len addr : Word) (payload : List Byte)
  /-- `PKT.ENTRY`: the packet with `length = 0` (R93). -/
  | pktEntry (addr : Word)
  /-- `SEEK.RX` (41_frame.md R150). -/
  | seekRx (b : Byte)
  /-- `HDR.RX` (41_frame.md R152). -/
  | hdrRx (b : Byte)
  /-- `PAY.RX` (42_payload_write.md R180). -/
  | payRx (b : Byte)
  /-- `WR.MEM` (42_payload_write.md R183). -/
  | wrMem
  /-- `ACK.TX` (43_ack_handoff.md R200). -/
  | ackTx
  /-- `CHAIN.RX` (41_frame.md R154). -/
  | chainRx (b : Byte)
  /-- `DONE.RESTART` (43_ack_handoff.md R204). -/
  | doneRestart
  /-- `CRC.HOLD` (40_crc.md R134). -/
  | crcHold
  /-- `CRC.INIT` (40_crc.md R130). -/
  | crcInit
  /-- `CRC.LOADM` (40_crc.md R131). -/
  | crcLoadm
  /-- `CRC.UPD` (40_crc.md R132). -/
  | crcUpd (din : Byte)
deriving DecidableEq, Repr

end Sys2Proof
end

