-- ==== Sys2Proof/Machine/Operands.lean ====
section
/-! DEFINITION. The pure functions on operands: the byte-position shift, lanes and wire images of a field, the seek
window's shift, and the CRC byte update. They read no state. -/

namespace Sys2Proof.Machine

/-- `v` truncated to the target word's `8*W` bits, as R10 truncates the result of an operator to its width. -/
def fit (c : Cfg) (v : Word) : Word := BitVec.ofNat 64 (v.toNat % 2 ^ c.bits)

/-- `SH(p, n)` (00_scope.md R12): the shift of byte position `p` within an `n`-byte field. DESIGN CHOICE (safe,
notes/assumptions/13.md): R12 defines it for `p < n` only; past the field it is 0 for `BE` and `8*p` for `LE`. -/
def sh (e : Endian) (p n : Nat) : Nat :=
  match e with
  | .le => 8 * p
  | .be => 8 * (n - 1 - p)

/-- The byte lane of `v` at bit `s`: `v[s+7 : s]` (R9). -/
def byteAt {w : Nat} (v : BitVec w) (s : Nat) : Byte := (v >>> s).setWidth 8

/-- `WIRE(v, n)` (R13): the `n` bytes of `v` in wire order. -/
def wire {w : Nat} (e : Endian) (n : Nat) (v : BitVec w) : List Byte :=
  (List.range n).map fun p => byteAt v (sh e p n)

/-- The field assembly of R12 from byte position `p` on: the OR of the bytes, each at its position's shift in an
`n`-byte field. -/
def assemble (e : Endian) (n : Nat) (p : Nat) (bs : List Byte) : Word :=
  match bs with
  | [] => 0
  | b :: rest => (b.setWidth 64 <<< sh e p n) ||| assemble e n (p + 1) rest

/-- `zext_{8W}(b) << SH(p, W)`: the byte `b` in its lane of a target word (R12, R92). -/
def lane (c : Cfg) (p : Nat) (b : Byte) : Word := fit c (b.setWidth 64 <<< sh c.endian p c.W)

/-- `SHIFTIN(w, b)` (41_frame.md R156). -/
def shiftIn (e : Endian) (w : Word32) (b : Byte) : Word32 :=
  match e with
  | .le => (w >>> 8) ||| (b.setWidth 32 <<< 24)
  | .be => (w <<< 8) ||| b.setWidth 32

/-- One of the eight iterations of `CRC8` (40_crc.md R129). -/
def crcBit (t : Word32) : Word32 := if t.getLsbD 0 then (t >>> 1) ^^^ polyR else t >>> 1

/-- `n` iterations of `CRC8`'s loop (40_crc.md R129). -/
def crcBits (n : Nat) (t : Word32) : Word32 :=
  match n with
  | 0 => t
  | n + 1 => crcBits n (crcBit t)

/-- `CRC8(s, b)` (40_crc.md R129). -/
def crc8 (s : Word32) (b : Byte) : Word32 := crcBits 8 (s ^^^ b.setWidth 32)

/-- `CRC8` over a sequence of bytes, the first byte first (40_crc.md R135). -/
def crcBytes (s : Word32) (bs : List Byte) : Word32 := bs.foldl crc8 s

/-- `CRC_MAGIC` (40_crc.md R131): the state after the four magic bytes in wire order. -/
def crcMagic (e : Endian) : Word32 := crcBytes crcInit (wire e 4 magic)

/-- What the CRC sub-unit loads into `crc` (30_encoding.md R99): the operation `op` with the data byte `din`. -/
def crcUnit (e : Endian) (op : CrcOp) (din : Byte) (crc : Word32) : Word32 :=
  match op with
  | .hold => crc
  | .init => crcInit
  | .loadm => crcMagic e
  | .upd => crc8 crc din

end Sys2Proof.Machine
end

