-- ==== Sys2Proof/WellFormed.lean ====
section
/-! DEFINITION. When an instruction is one the encodings can carry: a packet's fields fit the target word, a DATA packet
has a nonzero length and as many payload bytes as it says (30_encoding.md R90, R92, R93). The other formats carry every
operand value. -/

namespace Sys2Proof

/-- `v` is a value of the target word's `8*W` bits (R7). -/
abbrev Fits (c : Cfg) (v : Word) : Prop := v.toNat < 2 ^ c.bits

/-- The instruction is well formed on a block with the parameters `c`. -/
def WellFormed (c : Cfg) (i : Instr) : Bool :=
  match i with
  | .pktData len addr payload =>
    decide (len ≠ 0) && decide (payload.length = len.toNat) && decide (Fits c len) && decide (Fits c addr)
  | .pktEntry addr => decide (Fits c addr)
  | .seekRx _ => true
  | .hdrRx _ => true
  | .payRx _ => true
  | .wrMem => true
  | .ackTx => true
  | .chainRx _ => true
  | .doneRestart => true
  | .crcHold => true
  | .crcInit => true
  | .crcLoadm => true
  | .crcUpd _ => true

end Sys2Proof
end

