-- ==== Sys2Proof/Decode.lean ====
section
/-! DEFINITION. Decoding, total on any bytes, and the encoder, both from 30_encoding.md. The three formats are three
separate spaces, so a decoder is told which one its bytes come in (R90 FRAME, R98 STEP, R99 CRCOP).
The bytes of a STEP word are the selector `000 st ev`, then for an RX step the byte taken. The bytes of a CRCOP word are
`000000 crc_op`, then `crc_din`. This layout in bytes is a DESIGN CHOICE (safe, notes/assumptions/8.md): the spec gives
the selector 5 bits and the operation code 2, and says nothing of a container. -/

namespace Sys2Proof

open Sys2Proof.Machine

/-- Why bytes are no instruction. -/
inductive DecodeError where
  /-- Fewer bytes than the format needs (R90, R94). -/
  | truncated
  /-- The frame does not start with the magic marker (R91). -/
  | noMagic
  /-- A bit above the selector or the operation code is set. -/
  | reservedBits
  /-- The event's port is off in that state (R98: "cannot occur"). -/
  | cannotOccur (st : Fsm) (ev : Event)
  /-- `restart` outside `DONE` (R98, R205: a hint, ignored). -/
  | restartHint (st : Fsm)
  /-- `st = 7` (R98, R222: illegal). -/
  | illegalState
deriving DecidableEq, Repr

/-- The code of an FSM state (10_state.md R21). -/
def Fsm.code (st : Fsm) : BitVec 3 :=
  match st with
  | .seek => 0
  | .hdr => 1
  | .pay => 2
  | .wr => 3
  | .ack => 4
  | .chain => 5
  | .done => 6
  | .reserved => 7

/-- The FSM state of a code (10_state.md R21). -/
def Fsm.ofCode (v : BitVec 3) : Fsm :=
  if v = 0 then .seek else if v = 1 then .hdr else if v = 2 then .pay else if v = 3 then .wr
  else if v = 4 then .ack else if v = 5 then .chain else if v = 6 then .done else .reserved

/-- The code of a port event (R98). -/
def Event.code (ev : Event) : BitVec 2 :=
  match ev with
  | .rx => 0
  | .tx => 1
  | .mem => 2
  | .restart => 3

/-- The port event of a code (R98). -/
def Event.ofCode (v : BitVec 2) : Event :=
  if v = 0 then .rx else if v = 1 then .tx else if v = 2 then .mem else .restart

/-- The code of a CRC operation (R99). -/
def CrcOp.code (op : CrcOp) : BitVec 2 :=
  match op with
  | .hold => 0
  | .init => 1
  | .loadm => 2
  | .upd => 3

/-- The CRC operation of a code (R99). -/
def CrcOp.ofCode (v : BitVec 2) : CrcOp :=
  if v = 0 then .hold else if v = 1 then .init else if v = 2 then .loadm else .upd

/-- The selector word `sel = {st[2:0], ev[1:0]}` (R98). -/
def selector (st : Fsm) (ev : Event) : BitVec 5 := st.code ++ ev.code

/-- The step a selector picks, with `b` the byte of an RX step (the table of R98). -/
def decodeStep (sel : BitVec 5) (b : Byte) : Except DecodeError Instr :=
  match Fsm.ofCode (sel.extractLsb' 2 3), Event.ofCode (sel.extractLsb' 0 2) with
  | .reserved, _ => .error .illegalState
  | .seek, .rx => .ok (.seekRx b)
  | .hdr, .rx => .ok (.hdrRx b)
  | .pay, .rx => .ok (.payRx b)
  | .wr, .mem => .ok .wrMem
  | .ack, .tx => .ok .ackTx
  | .chain, .rx => .ok (.chainRx b)
  | .done, .restart => .ok .doneRestart
  | st, .restart => .error (.restartHint st)
  | st, ev => .error (.cannotOccur st ev)

/-- The operation a CRCOP code picks; `din` is read by `CRC.UPD` only (R99). -/
def decodeCrcOp (op : CrcOp) (din : Byte) : Instr :=
  match op with
  | .hold => .crcHold
  | .init => .crcInit
  | .loadm => .crcLoadm
  | .upd => .crcUpd din

/-- The first `n` bytes and the rest, where there are as many. -/
def takeBytes (n : Nat) (bs : List Byte) : Except DecodeError (List Byte × List Byte) :=
  if n ≤ bs.length then .ok (bs.take n, bs.drop n) else .error .truncated

/-- The header of a frame (R90, R91, R92): the magic marker, then `len` and `addr`; answers them and the bytes after. -/
def decodeHeader (c : Cfg) (bs : List Byte) : Except DecodeError (Word × Word × List Byte) := do
  let (m, r1) ← takeBytes 4 bs
  if m = wire c.endian 4 magic then
    let (l, r2) ← takeBytes c.W r1
    let (a, r3) ← takeBytes c.W r2
    return (assemble c.endian c.W 0 l, assemble c.endian c.W 0 a, r3)
  else .error .noMagic

/-- A frame (R90): `len` decides the packet kind (R93) and how many payload bytes follow (R94). -/
def decodeFrame (c : Cfg) (bs : List Byte) : Except DecodeError (Instr × List Byte) := do
  let (len, addr, r) ← decodeHeader c bs
  if len = 0 then
    return (.pktEntry addr, r)
  else
    let (payload, rest) ← takeBytes len.toNat r
    return (.pktData len addr payload, rest)

/-- A STEP word in bytes: the selector, then the byte of an RX step. -/
def decodeStepBytes (bs : List Byte) : Except DecodeError (Instr × List Byte) :=
  match bs with
  | [] => .error .truncated
  | w :: rest =>
    if w.toNat < 32 then
      if w.extractLsb' 0 2 = Event.rx.code then
        match rest with
        | [] => .error .truncated
        | b :: rest => (decodeStep (w.setWidth 5) b).map fun i => (i, rest)
      else (decodeStep (w.setWidth 5) 0).map fun i => (i, rest)
    else .error .reservedBits

/-- A CRCOP word in bytes: the operation code, then `crc_din`. -/
def decodeCrcBytes (bs : List Byte) : Except DecodeError (Instr × List Byte) :=
  match bs with
  | w :: din :: rest =>
    if w.toNat < 4 then .ok (decodeCrcOp (CrcOp.ofCode (w.setWidth 2)) din, rest) else .error .reservedBits
  | _ => .error .truncated

/-- The decoder: the instruction at the front of `bs`, which come in the format `f`, and the bytes after it. -/
def decode (f : Fmt) (c : Cfg) (bs : List Byte) : Except DecodeError (Instr × List Byte) :=
  match f with
  | .frame => decodeFrame c bs
  | .step => decodeStepBytes bs
  | .crcop => decodeCrcBytes bs

/-- The format an instruction is encoded in (spec/opcode_table.json). -/
def Instr.fmt (i : Instr) : Fmt :=
  match i with
  | .pktData _ _ _ => .frame
  | .pktEntry _ => .frame
  | .seekRx _ => .step
  | .hdrRx _ => .step
  | .payRx _ => .step
  | .wrMem => .step
  | .ackTx => .step
  | .chainRx _ => .step
  | .doneRestart => .step
  | .crcHold => .crcop
  | .crcInit => .crcop
  | .crcLoadm => .crcop
  | .crcUpd _ => .crcop

/-- A selector word in a byte, bits 7 to 5 zero. -/
def stepByte (st : Fsm) (ev : Event) : Byte := (selector st ev).setWidth 8

/-- An operation code in a byte, bits 7 to 2 zero. -/
def crcOpByte (op : CrcOp) : Byte := op.code.setWidth 8

/-- The frame of a packet (R90): `WIRE(MAGIC,4)`, `WIRE(len,W)`, `WIRE(addr,W)`, the payload. -/
def frameBytes (c : Cfg) (len addr : Word) (payload : List Byte) : List Byte :=
  wire c.endian 4 magic ++ wire c.endian c.W len ++ wire c.endian c.W addr ++ payload

/-- The encoder: the bytes of an instruction on a block with the parameters `c`. -/
def encode (c : Cfg) (i : Instr) : List Byte :=
  match i with
  | .pktData len addr payload => frameBytes c len addr payload
  | .pktEntry addr => frameBytes c 0 addr []
  | .seekRx b => [stepByte .seek .rx, b]
  | .hdrRx b => [stepByte .hdr .rx, b]
  | .payRx b => [stepByte .pay .rx, b]
  | .wrMem => [stepByte .wr .mem]
  | .ackTx => [stepByte .ack .tx]
  | .chainRx b => [stepByte .chain .rx, b]
  | .doneRestart => [stepByte .done .restart]
  | .crcHold => [crcOpByte .hold, 0]
  | .crcInit => [crcOpByte .init, 0]
  | .crcLoadm => [crcOpByte .loadm, 0]
  | .crcUpd din => [crcOpByte .upd, din]

/-- The wire bytes of a table word of the FRAME format: spec/opcode_table.json numbers its pattern with wire byte 0 in
the highest bits ("bits 95:64, wire bytes 0-3"). -/
def tableFrameBytes (nbits w : Nat) : List Byte :=
  (List.range (nbits / 8)).map fun i => BitVec.ofNat 8 (w / 2 ^ (nbits - 8 - 8 * i))

/-- The parameters a FRAME pattern of `nbits` bits is for: the table's own has 96 and is for `W = 4`, and one for
`W = 8` has 160 (spec/opcode_table.json, `layout`). -/
def tableCfg (nbits : Nat) : Cfg :=
  if nbits = 160 then { Cfg.default with word := .w8 } else Cfg.default

/-- The instruction of a table word, its operand bytes zero. A word of up to 8 bits is a STEP selector where R98 names
it, else a CRCOP code; the word 0 is `SEEK.RX` in the one space and `CRC.HOLD` in the other, and the selector is taken.
DESIGN CHOICE (safe, notes/assumptions/8.md): only this host-facing function must merge the two spaces. -/
def decodeTableWord (nbits w : Nat) : Option Instr :=
  if nbits ≤ 8 then
    match decode .step Cfg.default [BitVec.ofNat 8 w, 0] with
    | .ok (i, _) => if w < 256 then some i else none
    | .error _ =>
      match decode .crcop Cfg.default [BitVec.ofNat 8 w, 0] with
      | .ok (i, _) => if w < 256 then some i else none
      | .error _ => none
  else
    match decodeHeader (tableCfg nbits) (tableFrameBytes nbits w) with
    | .ok (len, addr, _) =>
      some (if len = 0 then .pktEntry addr else .pktData len addr (List.replicate len.toNat 0))
    | .error _ => none

end Sys2Proof
end

