-- ==== Sys2Proof/Machine/State.lean ====
section
/-! DEFINITION. The state of the machine as plain data: the block's registers (10_state.md R21, R22), the record of
model faults (60_exceptions.md R221, R222), the memory the memory agent holds (20_memory.md R60, R61), the two byte
streams, and what the other agents do next (30_encoding.md R100). R27 says which of these are not the block's own. -/

namespace Sys2Proof.Machine

/-- A model fault (60_exceptions.md R221, R222). The model RECORDS it in `State.faults`, as those rules say, and the
block then has no enabled step; no outcome of a step is `Host.Outcome.fault`, because `rst` still leaves that state. -/
inductive Fault where
  /-- A misaligned request under `MISALIGNED_WRITE = fault`, with its address. Recorded by `noteFault`, at every edge
  that begins in that state and by `WR.MEM` there. Safe: the block stops where a platform might write (R66). -/
  | misalignedWrite (a : Word)
  /-- `st = 7`. Recorded by `noteFault`, at every edge that begins in that state. Safe: no rule reaches it (R26). -/
  | illegalState
deriving DecidableEq, Repr

/-- Why an instruction has no meaning in a state. -/
inductive Refusal where
  /-- Answered by `exec` for an instruction the model gives no meaning; no arm does so. Safe. -/
  | notModelled (mnemonic : String)
  /-- A step rule asked for in another FSM state than its selector names: 30_encoding.md R98 says that selector "cannot
  occur" there. Answered by `inState` when a meaning is called directly; `step` never does so. Safe. -/
  | notSelected (st : Fsm)
deriving DecidableEq, Repr

/-- What the block gives to the outside, in order: the spec's expected outputs `ACK` (one byte each) and `WRITE`
(30_encoding.md R103). -/
inductive Output where
  /-- A byte given on the TX port. -/
  | tx (b : Byte)
  /-- A write the memory accepted. -/
  | write (a v : Word)
deriving DecidableEq, Repr

/-- The input ports at one clock edge (30_encoding.md R100). `rx_data` is the oldest byte of `State.rx`, and `rx_valid`
is 1 only if there is one. -/
structure Ports where
  rst      : Bool
  rxValid  : Bool
  txReady  : Bool
  memReady : Bool
  restart  : Bool
deriving DecidableEq, Repr

/-- One thing the outside does, in the order of `State.inputs` (notes/assumptions/6.md). -/
inductive Input where
  /-- One clock edge with these input ports. -/
  | edge (p : Ports)
  /-- One step of the CRC sub-unit driven at its own inputs `crc_op` and `crc_din` (30_encoding.md R99). -/
  | crcOp (op : CrcOp) (din : Byte)
  /-- The sender sends these bytes, and every agent lifts its hold until the block has no more to do with them (the
  stream notation of 30_encoding.md R103; 60_exceptions.md R223). -/
  | stream (bytes : List Byte)
  /-- Another agent writes one byte of memory (20_memory.md R73). -/
  | otherWrite (a : Word) (b : Byte)
deriving DecidableEq, Repr

/-- The flat memory image, sparse: address and byte, addresses strictly rising. An address it does not list has no
value the model knows (notes/assumptions/4.md). -/
abbrev Memory := List Host.Cell

/-- Everything the spec gives the machine. -/
structure State where
  /-- The parameters `W`, `ENDIAN`, `MISALIGNED_WRITE` (R6). No step changes them. -/
  cfg    : Cfg
  /-- `st` (R21). -/
  st     : Fsm
  /-- `win`: the seek window; the chain bytes being assembled (R22). -/
  win    : Word32
  /-- `k`: byte position within `HDR`, `ACK` or `CHAIN` (R22). -/
  k      : BitVec 4
  /-- `len`: the packet's length field (R22). -/
  len    : Word
  /-- `addr`: the packet's address field (R22). -/
  addr   : Word
  /-- `j`: payload bytes taken so far (R22). -/
  j      : Word
  /-- `acc`: the word being assembled (R22). -/
  acc    : Word
  /-- `crc`: the running CRC, not complemented (R22, R25). -/
  crc    : Word32
  /-- `wr_addr`: address of the pending write (R22). -/
  wrAddr : Word
  /-- `wr_data`: data of the pending write (R22). -/
  wrData : Word
  /-- `entry`: the entry address last returned (R22). -/
  entry  : Word
  /-- `done`: 1 while `entry` holds a returned address (R22, R24). -/
  done   : Bool
  /-- The model faults recorded so far, oldest first, none twice (R221, R222). -/
  faults : List Fault
  /-- The memory image (R60, R61). -/
  mem    : Memory
  /-- The RX stream still with the transport, oldest byte first (R60, R27, R261). -/
  rx     : List Byte
  /-- The TX bytes given and the writes accepted, oldest first (R60, R72). -/
  out    : List Output
  /-- What the outside does next (R100). -/
  inputs : List Input
deriving DecidableEq, Repr

/-- The machine right after reset (70_reset_and_hazards.md R250) with the parameters `c`: nothing recorded, nothing sent,
nothing given, no memory listed, and no agent asserting anything (notes/assumptions/3.md). -/
def State.resetWith (c : Cfg) : State :=
  { cfg := c, st := .seek, win := 0, k := 0, len := 0, addr := 0, j := 0, acc := 0, crc := crcInit,
    wrAddr := 0, wrData := 0, entry := 0, done := false, faults := [], mem := [], rx := [], out := [], inputs := [] }

/-- The machine right after reset, with the parameters of `Cfg.default`. -/
def State.reset : State := State.resetWith Cfg.default

end Sys2Proof.Machine
end

