-- ==== Sys2Proof/Machine/Flags.lean ====
section
/-! DEFINITION. The output functions of the block (30_encoding.md R101): its handshake signals, its one flag and its
status vector, each a function of the registers. -/

namespace Sys2Proof.Machine

/-- `rx_ready` (R101). -/
def rxReady (s : State) : Bool := s.st == .seek || s.st == .hdr || s.st == .pay || s.st == .chain

/-- `tx_valid` (R101). -/
def txValid (s : State) : Bool := s.st == .ack

/-- `crc_fin`, the finalised checksum (40_crc.md R133). -/
def crcFin (s : State) : Word32 := ~~~s.crc

/-- `tx_data` (R101): byte `k` of `NOT crc`. DESIGN CHOICE (unsafe, notes/assumptions/14.md): for `k` from 4 on the field
lies past bit 31 and the spec gives it no value; the shift with zero fill makes it 0 here. -/
def txData (s : State) : Byte := byteAt (crcFin s) (8 * s.k.toNat)

/-- `mem_valid` (R101). -/
def memValid (s : State) : Bool := s.st == .wr

/-- `mem_addr` (R101). -/
def memAddr (s : State) : Word := s.wrAddr

/-- `mem_wdata` (R101). -/
def memWdata (s : State) : Word := s.wrData

/-- The output `done` (R101): the register, the block's only flag (R24). -/
def doneOut (s : State) : Bool := s.done

/-- The output `entry` (R101); meaningful only while `done` is 1 (R100). -/
def entryOut (s : State) : Word := s.entry

/-- The status vector `stat = {done, st}` (R101). -/
def stat (s : State) : BitVec 4 := BitVec.ofBool s.done ++ s.st.code

/-- The memory agent never accepts the pending request (20_memory.md R66, 60_exceptions.md R221): a misaligned address
under `MISALIGNED_WRITE = fault`. -/
def neverAccepted (s : State) : Bool :=
  s.st == .wr && s.cfg.misaligned == .fault && s.wrAddr.toNat % s.cfg.W != 0

end Sys2Proof.Machine
end

