-- ==== Sys2Proof/Machine/Ops.lean ====
section
/-! DEFINITION. The named operations over memory, the streams and the registers: the memory write primitive, the two
stream transfers, the record of a model fault, the CRC sub-unit, reset, and the register actions the step rules share. -/

namespace Sys2Proof.Machine

/-- The value of one byte of memory, where the model knows it. -/
def Memory.read (m : Memory) (a : Nat) : Option Byte :=
  match m with
  | [] => none
  | (a', b) :: rest => if a = a' then some b else Memory.read rest a

/-- One byte written, the addresses kept strictly rising. -/
def Memory.set (m : Memory) (a : Nat) (b : Byte) : Memory :=
  match m with
  | [] => [(a, b)]
  | (a', b') :: rest =>
    if a < a' then (a, b) :: (a', b') :: rest
    else if a = a' then (a, b) :: rest
    else (a', b') :: Memory.set rest a b

/-- Every address listed is at least `lo`, and they rise strictly. -/
def Memory.wfFrom (lo : Nat) (m : Memory) : Bool :=
  match m with
  | [] => true
  | (a, _) :: rest => decide (lo ≤ a) && Memory.wfFrom (a + 1) rest

/-- The canonical form: addresses strictly rising. No entry can equal what an unlisted address reads as, which is no
value. -/
def Memory.wf (m : Memory) : Bool := Memory.wfFrom 0 m

/-- The byte address `(a + i) mod 2^AW` (20_memory.md R61). -/
def byteAddr (c : Cfg) (a : Word) (i : Nat) : Nat := (a.toNat + i) % 2 ^ c.bits

/-- The first `n` byte writes of `MemWrite(a, W, v)` (20_memory.md R61). -/
def memWriteBytes (c : Cfg) (a v : Word) (n : Nat) (m : Memory) : Memory :=
  match n with
  | 0 => m
  | n + 1 => (memWriteBytes c a v n m).set (byteAddr c a n) (byteAt v (sh c.endian n c.W))

/-- `MemWrite(a, W, v)` (20_memory.md R61). The bytes go to `W` different addresses, so R66's "in any order" changes
nothing here. -/
def memWrite (c : Cfg) (a v : Word) (m : Memory) : Memory := memWriteBytes c a v c.W m

/-- `RxTake()` seen from the transport (R11): its oldest byte is gone. -/
def State.dropRx (s : State) : State := { s with rx := s.rx.tail }

/-- `TxGive(b)` (R11). -/
def State.giveTx (s : State) (b : Byte) : State := { s with out := s.out ++ [.tx b] }

/-- The memory performs the pending write (30_encoding.md R102). -/
def State.acceptWrite (s : State) : State :=
  { s with mem := memWrite s.cfg s.wrAddr s.wrData s.mem, out := s.out ++ [.write s.wrAddr s.wrData] }

/-- A model fault recorded, once (60_exceptions.md R221, R222). -/
def State.record (s : State) (f : Fault) : State :=
  if f ∈ s.faults then s else { s with faults := s.faults ++ [f] }

/-- TAKING A MODEL FAULT: the one operation that records the fault of the state the block is in, if it is in one
(R221 in `WR`, R222 in code 7). Nothing else changes: the block has no trap mechanism (R226) and stays where it is, with
no enabled step, until `rst`. -/
def State.noteFault (s : State) : State :=
  if s.st = .reserved then s.record .illegalState
  else if neverAccepted s then s.record (.misalignedWrite s.wrAddr)
  else s

/-- The CRC sub-unit takes one operation (30_encoding.md R99). -/
def State.driveCrc (s : State) (op : CrcOp) (din : Byte) : State :=
  { s with crc := crcUnit s.cfg.endian op din s.crc }

/-- The registers after an edge with `rst = 1` (70_reset_and_hazards.md R250), `crc` by `CRC.INIT`. What is not the
block's own stays: memory, streams, parameters, and the record of faults (R221). -/
def State.clearRegs (s : State) : State :=
  { s.driveCrc .init 0 with
    st := .seek, win := 0, k := 0, len := 0, addr := 0, j := 0, acc := 0,
    wrAddr := 0, wrData := 0, entry := 0, done := false }

/-- `ENTER_HDR` (41_frame.md R151). -/
def State.enterHdr (s : State) : State :=
  { s.driveCrc .loadm 0 with len := 0, addr := 0, k := 0, st := .hdr }

/-- `RESYNC` (41_frame.md R155). -/
def State.resync (s : State) : State := { s with win := 0, k := 0, st := .seek }

/-- `HDR_DONE` (41_frame.md R153), `len` being the value after the step. -/
def State.hdrDone (s : State) : State :=
  if s.len = 0 then { s with k := 0, st := .ack } else { s with k := 0, j := 0, acc := 0, st := .pay }

/-- The register writes of `WORD_WRITE(x, v)` and `FLUSH_WRITE(x, v)` (42_payload_write.md R181, R182: "the same register
writes"). -/
def State.issueWrite (s : State) (x v : Word) : State :=
  { s with wrAddr := fit s.cfg x, wrData := v, acc := 0, st := .wr }

/-- `TERMINATE` (43_ack_handoff.md R202). -/
def State.terminate (s : State) : State := { s with entry := s.addr, done := true, st := .done }

/-- `ACK_DONE` (43_ack_handoff.md R201). -/
def State.ackDone (s : State) : State :=
  if s.len = 0 then s.terminate else { s with k := 0, win := 0, st := .chain }

/-- A step rule's effect, in the FSM state its selector names; elsewhere the selector cannot occur (30_encoding.md R98). -/
def inState (st : Fsm) (s t : State) : Host.Outcome State Fault Refusal :=
  if s.st = st then .next t else .refused (.notSelected s.st)

end Sys2Proof.Machine
end

