-- ==== Sys2Proof/Machine/Crc.lean ====
section
/-! DEFINITION. The four operations of the CRC sub-unit driven at its own inputs (40_crc.md). -/

namespace Sys2Proof.Machine

/-- `CRC.HOLD` (40_crc.md R134). -/
def execCrcHold (s : State) : Host.Outcome State Fault Refusal := .next (s.driveCrc .hold 0)

/-- `CRC.INIT` (40_crc.md R130). -/
def execCrcInit (s : State) : Host.Outcome State Fault Refusal := .next (s.driveCrc .init 0)

/-- `CRC.LOADM` (40_crc.md R131). -/
def execCrcLoadm (s : State) : Host.Outcome State Fault Refusal := .next (s.driveCrc .loadm 0)

/-- `CRC.UPD` (40_crc.md R132). -/
def execCrcUpd (din : Byte) (s : State) : Host.Outcome State Fault Refusal := .next (s.driveCrc .upd din)

end Sys2Proof.Machine
end

