-- ==== Sys2Proof/Machine/Ack.lean ====
section
/-! DEFINITION. Acknowledge and hand-off (43_ack_handoff.md): `ACK.TX` and `DONE.RESTART`. -/

namespace Sys2Proof.Machine

/-- The effect of `ACK.TX` (43_ack_handoff.md R200). -/
def ackRule (s : State) : State :=
  let t := s.giveTx (txData s)
  if s.k.toNat < 3 then { t with k := s.k + 1 } else t.ackDone

/-- `ACK.TX`. -/
def execAckTx (s : State) : Host.Outcome State Fault Refusal := inState .ack s (ackRule s)

/-- The effect of `DONE.RESTART` (43_ack_handoff.md R204). -/
def restartRule (s : State) : State := { s with done := false, win := 0, k := 0, st := .seek }

/-- `DONE.RESTART`. -/
def execDoneRestart (s : State) : Host.Outcome State Fault Refusal := inState .done s (restartRule s)

end Sys2Proof.Machine
end

