-- ==== Sys2Proof/Machine/Frame.lean ====
section
/-! DEFINITION. The steps that take RX bytes outside the payload (41_frame.md): `SEEK.RX`, `HDR.RX`, `CHAIN.RX`. Each has
its effect on the state the rule is selected in (`…Rule`) and its meaning (`exec…`). -/

namespace Sys2Proof.Machine

/-- The effect of `SEEK.RX` (41_frame.md R150). -/
def seekRule (b : Byte) (s : State) : State :=
  let w := shiftIn s.cfg.endian s.win b
  if w = magic then { s with win := w }.enterHdr else { s with win := w, st := .seek }

/-- `SEEK.RX`. -/
def execSeekRx (b : Byte) (s : State) : Host.Outcome State Fault Refusal := inState .seek s (seekRule b s)

/-- The header field that takes the byte `b` at position `k` (41_frame.md R152): `len`, then `addr`. -/
def hdrField (b : Byte) (s : State) : State :=
  if s.k.toNat < s.cfg.W then { s with len := s.len ||| lane s.cfg s.k.toNat b }
  else { s with addr := s.addr ||| lane s.cfg (s.k.toNat - s.cfg.W) b }

/-- The effect of `HDR.RX` (41_frame.md R152). -/
def hdrRule (b : Byte) (s : State) : State :=
  let t := hdrField b (s.driveCrc .upd b)
  if s.k.toNat = 2 * s.cfg.W - 1 then t.hdrDone else { t with k := s.k + 1 }

/-- `HDR.RX`. -/
def execHdrRx (b : Byte) (s : State) : Host.Outcome State Fault Refusal := inState .hdr s (hdrRule b s)

/-- The effect of `CHAIN.RX` (41_frame.md R154). -/
def chainRule (b : Byte) (s : State) : State :=
  let w := shiftIn s.cfg.endian s.win b
  if s.k.toNat < 3 then { s with win := w, k := s.k + 1 }
  else if w = magic then { s with win := w }.enterHdr
  else { s with win := w }.resync

/-- `CHAIN.RX`. -/
def execChainRx (b : Byte) (s : State) : Host.Outcome State Fault Refusal := inState .chain s (chainRule b s)

end Sys2Proof.Machine
end

