-- ==== Sys2Proof/Machine/Payload.lean ====
section
/-! DEFINITION. The steps that move the payload into memory (42_payload_write.md): `PAY.RX` and `WR.MEM`. -/

namespace Sys2Proof.Machine

/-- The position of the next payload byte in its word, `j mod W` (42_payload_write.md R180). -/
def payPos (s : State) : Nat := s.j.toNat % s.cfg.W

/-- The word with the byte `b` in its lane, `acc OR (zext(b) << SH(p, W))` (R180). -/
def payWord (b : Byte) (s : State) : Word := s.acc ||| lane s.cfg (payPos s) b

/-- The address of the word the next payload byte belongs to, `addr + (j - p)` (R180). -/
def payAddr (s : State) : Word := s.addr + (s.j - BitVec.ofNat 64 (payPos s))

/-- The effect of `PAY.RX` (42_payload_write.md R180). The full-word and the last-byte branch make the same register
writes (R181, R182). -/
def payRule (b : Byte) (s : State) : State :=
  let t := { s.driveCrc .upd b with j := fit s.cfg (s.j + 1) }
  if payPos s = s.cfg.W - 1 then t.issueWrite (payAddr s) (payWord b s)
  else if fit s.cfg (s.j + 1) = s.len then t.issueWrite (payAddr s) (payWord b s)
  else { t with acc := payWord b s, st := .pay }

/-- `PAY.RX`. -/
def execPayRx (b : Byte) (s : State) : Host.Outcome State Fault Refusal := inState .pay s (payRule b s)

/-- The effect of `WR.MEM` (42_payload_write.md R183). On a request the memory never accepts, the step does not happen
and the model fault is recorded (60_exceptions.md R221). -/
def wrRule (s : State) : State :=
  if neverAccepted s then s.noteFault
  else if s.j = s.len then { s.acceptWrite with k := 0, st := .ack }
  else { s.acceptWrite with st := .pay }

/-- `WR.MEM`. -/
def execWrMem (s : State) : Host.Outcome State Fault Refusal := inState .wr s (wrRule s)

end Sys2Proof.Machine
end

