-- ==== Sys2Proof/Machine/Packet.lean ====
section
/-! DEFINITION. The two packet kinds as instructions (30_encoding.md R93): the sender sends the frame, and the sender,
the transport and the memory lift every hold (60_exceptions.md R223) until the block has no more to do. One instruction
is then many steps of R98, composed here from the step rules (notes/assumptions/7.md). -/

namespace Sys2Proof.Machine

/-- An RX step on the transport's oldest byte, if it has one. -/
def serveRx (rule : Byte → State → State) (s : State) : State :=
  match s.rx with
  | [] => s
  | b :: _ => rule b s.dropRx

/-- One step of a block whose every hold is lifted: the step rule of the state it is in (the table of R98). In `DONE`
it waits for `restart` (R223); in code 7 it has no step (R222). -/
def serve (s : State) : State :=
  match s.st with
  | .seek => serveRx seekRule s
  | .hdr => serveRx hdrRule s
  | .pay => serveRx payRule s
  | .wr => wrRule s
  | .ack => ackRule s
  | .chain => serveRx chainRule s
  | .done => s
  | .reserved => s.noteFault

/-- `n` such steps. -/
def serveN (n : Nat) (s : State) : State :=
  match n with
  | 0 => s
  | n + 1 => serveN n (serve s)

/-- Steps enough for a block with `n` bytes to take: each byte costs its RX step and at most one write and four
acknowledgment bytes, and as much may be open before the first. A step with nothing to do changes nothing, so more are
harmless. -/
def serveSteps (n : Nat) : Nat := 6 * n + 6

/-- The sender sends `bytes` after those the transport still holds, and every hold is lifted. -/
def sendBytes (bytes : List Byte) (s : State) : State :=
  serveN (serveSteps (s.rx.length + bytes.length)) { s with rx := s.rx ++ bytes }

/-- `PKT.DATA` (30_encoding.md R90, R93; 42_payload_write.md R184). -/
def execPktData (len addr : Word) (payload : List Byte) (s : State) : Host.Outcome State Fault Refusal :=
  .next (sendBytes (frameBytes s.cfg len addr payload) s)

/-- `PKT.ENTRY` (30_encoding.md R90, R93; 43_ack_handoff.md R202). -/
def execPktEntry (addr : Word) (s : State) : Host.Outcome State Fault Refusal :=
  .next (sendBytes (frameBytes s.cfg 0 addr []) s)

end Sys2Proof.Machine
end

