-- ==== Sys2Proof/Machine/Dispatch.lean ====
section
/-! DEFINITION. One arm per instruction. -/

namespace Sys2Proof.Machine

def exec (i : Instr) (s : State) : Host.Outcome State Fault Refusal :=
  match i with
  | .pktData len addr payload => Sys2Proof.Machine.execPktData len addr payload s
  | .pktEntry addr => Sys2Proof.Machine.execPktEntry addr s
  | .seekRx b => Sys2Proof.Machine.execSeekRx b s
  | .hdrRx b => Sys2Proof.Machine.execHdrRx b s
  | .payRx b => Sys2Proof.Machine.execPayRx b s
  | .wrMem => Sys2Proof.Machine.execWrMem s
  | .ackTx => Sys2Proof.Machine.execAckTx s
  | .chainRx b => Sys2Proof.Machine.execChainRx b s
  | .doneRestart => Sys2Proof.Machine.execDoneRestart s
  | .crcHold => Sys2Proof.Machine.execCrcHold s
  | .crcInit => Sys2Proof.Machine.execCrcInit s
  | .crcLoadm => Sys2Proof.Machine.execCrcLoadm s
  | .crcUpd din => Sys2Proof.Machine.execCrcUpd din s

end Sys2Proof.Machine
end

