-- ==== Sys2Proof/Machine/Ports.lean ====
section
/-! DEFINITION. What happens at a clock edge: which port event completes (30_encoding.md R101, 60_exceptions.md R225),
which instruction that selects (R98), the reset edge (70_reset_and_hazards.md R250, R251), and the other inputs. -/

namespace Sys2Proof.Machine

/-- The byte the transport offers at this edge: `rx_valid` with `rx_data` (R100). -/
def offered (p : Ports) (s : State) : Option Byte := if p.rxValid then s.rx.head? else none

/-- The RX transfer completes at this edge (R101). -/
def rxDone (p : Ports) (s : State) : Bool := rxReady s && (offered p s).isSome

/-- The TX transfer completes at this edge (R101). -/
def txDone (p : Ports) (s : State) : Bool := txValid s && p.txReady

/-- The memory accepts the pending write at this edge (R101, R102); it never accepts one that R66 says it does not. -/
def memDone (p : Ports) (s : State) : Bool := memValid s && p.memReady && !neverAccepted s

/-- The port event of this edge. At most one transfer completes (R101); `restart` counts only where none does (R205,
R225). -/
def event (p : Ports) (s : State) : Option Event :=
  if rxDone p s then some .rx
  else if txDone p s then some .tx
  else if memDone p s then some .mem
  else if p.restart then some .restart
  else none

/-- The far side of a transfer that completes at a reset edge (70_reset_and_hazards.md R251): the byte is lost to the
transport, the sender gets its byte, the memory performs the write. -/
def farSide (p : Ports) (s : State) : State :=
  if rxDone p s then s.dropRx
  else if txDone p s then s.giveTx (txData s)
  else if memDone p s then s.acceptWrite
  else s

/-- An edge with `rst = 1` (R250, R251). -/
def resetEdge (p : Ports) (s : State) : State := (farSide p s).clearRegs

/-- What the machine does next: run an instruction on a state whose operands have been taken, or come to a state without
running one. -/
inductive Fetched where
  | run (i : Instr) (s : State)
  | settle (s : State)
deriving DecidableEq, Repr

/-- What a clock edge selects. `rst` wins over every other input (R225). With no event, or a hint (R205), the registers
keep their values (R223, R234); a state that has a model fault records it (R221, R222). -/
def fetchEdge (p : Ports) (s : State) : Fetched :=
  if p.rst then .settle (resetEdge p s.noteFault)
  else
    match event p s.noteFault with
    | none => .settle s.noteFault
    | some ev =>
      match decodeStep (selector s.st ev) ((offered p s).getD 0) with
      | .ok i => .run i (if ev = .rx then s.noteFault.dropRx else s.noteFault)
      | .error _ => .settle s.noteFault

/-- An edge at which no agent asserts anything. -/
def idlePorts : Ports := { rst := false, rxValid := false, txReady := false, memReady := false, restart := false }

/-- An edge at which every agent lifts its hold, and neither `rst` nor `restart` is asserted (R223). -/
def readyPorts : Ports := { rst := false, rxValid := true, txReady := true, memReady := true, restart := false }

/-- A byte of memory written by another agent (20_memory.md R73). -/
def otherWrite (a : Word) (b : Byte) (s : State) : State :=
  { s with mem := s.mem.set (byteAddr s.cfg a 0) b }

/-- What the next input selects. Bytes that are exactly one packet run as that packet; other bytes are sent as they are,
for no byte sequence is illegal (30_encoding.md R97). With no input left, nothing is asserted at this edge. -/
def fetch (s : State) : Fetched :=
  match s.inputs with
  | [] => fetchEdge idlePorts s
  | .edge p :: rest => fetchEdge p { s with inputs := rest }
  | .crcOp op din :: rest => .run (decodeCrcOp op din) { s with inputs := rest }
  | .stream bytes :: rest =>
    match decode .frame s.cfg bytes with
    | .ok (i, []) => .run i { s with inputs := rest }
    | _ => .settle (sendBytes bytes { s with inputs := rest })
  | .otherWrite a b :: rest => .settle (otherWrite a b { s with inputs := rest })

/-- The port inputs that complete the event `ev`. -/
def eventPorts (ev : Event) : Ports :=
  match ev with
  | .rx => { idlePorts with rxValid := true }
  | .tx => { idlePorts with txReady := true }
  | .mem => { idlePorts with memReady := true }
  | .restart => { idlePorts with restart := true }

/-- The selector of R98 placed where the next step finds it: its `st` in the register, its event at the next edge, and
for an RX event a zero byte as the oldest of the transport. -/
def placeSelector (st : Fsm) (ev : Event) (s : State) : State :=
  { s with st := st, rx := if ev = .rx then 0 :: s.rx else s.rx, inputs := .edge (eventPorts ev) :: s.inputs }

/-- A table word placed as the next input: a selector, else a CRC operation, as `decodeTableWord` reads it; a longer
word is a frame, its payload bytes zero. -/
def placeWord (s : State) (nbits w : Nat) : State :=
  if nbits ≤ 8 then
    match decodeTableWord nbits w with
    | some .crcHold => { s with inputs := .crcOp .hold 0 :: s.inputs }
    | some .crcInit => { s with inputs := .crcOp .init 0 :: s.inputs }
    | some .crcLoadm => { s with inputs := .crcOp .loadm 0 :: s.inputs }
    | some (.crcUpd d) => { s with inputs := .crcOp .upd d :: s.inputs }
    | _ => placeSelector (Fsm.ofCode (BitVec.ofNat 3 (w / 4))) (Event.ofCode (BitVec.ofNat 2 w)) s
  else
    match decodeHeader s.cfg (tableFrameBytes nbits w) with
    | .ok (len, _, _) =>
      { s with inputs := .stream (tableFrameBytes nbits w ++ List.replicate len.toNat 0) :: s.inputs }
    | .error _ => { s with inputs := .stream (tableFrameBytes nbits w) :: s.inputs }

end Sys2Proof.Machine
end

