-- ==== Sys2Proof/Machine/Step.lean ====
section
/-! DEFINITION. The step of the machine, and where a table word is placed for it. -/

namespace Sys2Proof.Machine

/-- One step: what the next input selects is run, or comes to a state on its own (R98, R268). -/
def step (s : State) : Host.Outcome State Fault Refusal :=
  match fetch s with
  | .run i t => exec i t
  | .settle t => .next t

/-- `s` with the table word `w` as what `step` fetches next. -/
def State.withFetchWord (s : State) (nbits w : Nat) : State := placeWord s nbits w

end Sys2Proof.Machine
end

