-- ==== Sys2Proof/Safety.lean ====
section
/-! DEFINITION. The terms statements are made in. First what a good state is: the state invariants of 10_state.md R26,
the values a target word can have, the memory's canonical form, a run with no model fault. Then what the spec says of
whole sequences, written apart from the machine: the standard CRC-32, a packet's writes, an acknowledgment. -/

namespace Sys2Proof.Machine

/-- Every word register holds a value of `8*W` bits (R7). -/
structure WordsFit (s : State) : Prop where
  len    : Fits s.cfg s.len
  addr   : Fits s.cfg s.addr
  j      : Fits s.cfg s.j
  acc    : Fits s.cfg s.acc
  wrAddr : Fits s.cfg s.wrAddr
  wrData : Fits s.cfg s.wrData
  entry  : Fits s.cfg s.entry

/-- The memory is in its canonical form and lists addresses of the address space only (20_memory.md R60). -/
structure MemoryFits (c : Cfg) (m : Memory) : Prop where
  wf    : Memory.wf m = true
  bound : ∀ cell ∈ m, cell.1 < 2 ^ c.bits

/-- The invariants of R26, clause by clause, and three the model needs beside them: words fit their width, the memory is
canonical, and `acc` is zero while a write is pending. DEDUCED (safe, notes/assumptions/9.md): R26's clause on the lanes
of `acc` in `PAY` is kept by `WR.MEM` only because R181 cleared `acc`. -/
structure Inv (s : State) : Prop where
  legalState : s.st ≠ .reserved
  hdrPos     : s.st = .hdr → s.k.toNat < 2 * s.cfg.W
  ackPos     : s.st = .ack ∨ s.st = .chain → s.k.toNat < 4
  payCount   : s.st = .pay → s.j.toNat < s.len.toNat ∧ s.len ≠ 0
  payLanes   : s.st = .pay → ∀ q, s.j.toNat % s.cfg.W ≤ q → q < s.cfg.W → byteAt s.acc (sh s.cfg.endian q s.cfg.W) = 0
  wrCount    : s.st = .wr → 1 ≤ s.j.toNat ∧ s.j.toNat ≤ s.len.toNat
  wrAcc      : s.st = .wr → s.acc = 0
  doneFlag   : s.st = .done ↔ s.done = true
  words      : WordsFit s
  memory     : MemoryFits s.cfg s.mem

/-- No model fault has been recorded (60_exceptions.md R221, R222): no request was refused for its alignment, and the
reserved state was never met. -/
def FaultFree (s : State) : Prop := s.faults = []

/-- The record `fs` of model faults with `f` on it: a fault already on record is not added again (60_exceptions.md R221,
notes/assumptions/5.md). -/
def onRecord (fs : List Fault) (f : Fault) : List Fault := if f ∈ fs then fs else fs ++ [f]

/-- Instructions run one after the other, up to the first that does not answer a next state. -/
def execAll (is : List Instr) (s : State) : Host.Outcome State Fault Refusal :=
  match is with
  | [] => .next s
  | i :: rest =>
    match exec i s with
    | .next t => execAll rest t
    | .fault f => .fault f
    | .refused r => .refused r

/-- One bit of the CRC in its MSB-first form with the normal polynomial `0x04C11DB7` (40_crc.md R135, R137). -/
def msbBit (t : Word32) : Word32 := if t.getLsbD 31 then (t <<< 1) ^^^ 0x04C11DB7 else t <<< 1

/-- One byte of the CRC in its MSB-first form: the byte enters at the high end, then eight bits. -/
def msbByte (s : Word32) (b : Byte) : Word32 := Nat.repeat msbBit 8 (s ^^^ (b.setWidth 32 <<< 24))

/-- The standard CRC-32 by its catalogue parameters (40_crc.md R135): width 32, normal polynomial `0x04C11DB7`, init
`0xFFFFFFFF`, reflected input, reflected output, xorout `0xFFFFFFFF`. PRESUMED (safe, notes/assumptions/10.md): R135
gives these parameters from general knowledge; no part of the machine uses this definition. -/
def standardCrc32 (bs : List Byte) : Word32 :=
  ((bs.map BitVec.reverse).foldl msbByte 0xFFFFFFFF).reverse ^^^ 0xFFFFFFFF

/-- The number of words a payload fills, `ceil(len / W)` (20_memory.md R65). -/
def wordCount (c : Cfg) (payload : List Byte) : Nat := (payload.length + c.W - 1) / c.W

/-- The address of write number `m`, `(addr + m*W) mod 2^AW` (42_payload_write.md R184). -/
def writeAddr (c : Cfg) (addr : Word) (m : Nat) : Word := BitVec.ofNat 64 ((addr.toNat + m * c.W) % 2 ^ c.bits)

/-- The value of write number `m` (R184): the OR of its payload bytes, each in its lane. -/
def writeValue (c : Cfg) (payload : List Byte) (m : Nat) : Word :=
  assemble c.endian c.W 0 ((payload.drop (m * c.W)).take c.W)

/-- The writes of a DATA packet in order (R184). -/
def packetWrites (c : Cfg) (addr : Word) (payload : List Byte) : List Output :=
  (List.range (wordCount c payload)).map fun m => Output.write (writeAddr c addr m) (writeValue c payload m)

/-- The acknowledgment of the checksum `f`: its four bytes, least significant first (30_encoding.md R95). -/
def ackOutputs (f : Word32) : List Output :=
  [.tx (byteAt f 0), .tx (byteAt f 8), .tx (byteAt f 16), .tx (byteAt f 24)]

/-- A block at the start of a packet: in `SEEK` with an empty window, or at the first byte of the chain check; and the
transport holds nothing (43_ack_handoff.md R206). -/
def AtPacketStart (s : State) : Prop :=
  (s.st = .seek ∧ s.win = 0 ∨ s.st = .chain ∧ s.k = 0) ∧ s.rx = []

end Sys2Proof.Machine
end

