-- ==== Sys2Proof/Certificates/Slice0/Obligations.lean ====
section
/-! DEFINITION. The statements about the model, each from a rule of spec/. An equation `exec i s = .next …` says at once
that the instruction completes, what it writes, and its frame: every register, flag, byte of memory and stream the
right side does not name is as before. -/

open Sys2Proof Sys2Proof.Machine

/-! ### The CRC sub-unit -/

/-- R129: `CRC8` is a XOR of the byte into the low bits, then eight times a right shift, with the reversed polynomial
XORed in where the bit shifted out was 1. -/
def Obligations.CrcByteUpdateIsEightShifts : Prop :=
  ∀ (s : Word32) (b : Byte),
    crc8 s b =
      Nat.repeat (fun t : Word32 => if t &&& 1 = 1 then (t >>> 1) ^^^ 0xEDB88320 else t >>> 1) 8 (s ^^^ b.setWidth 32)

/-- R130, R134, R132: `CRC.INIT`, `CRC.HOLD` and `CRC.UPD` complete in every state and write `crc` only. -/
def Obligations.CrcInitHoldUpdWriteCrcOnly : Prop :=
  ∀ (s : State) (b : Byte),
    exec .crcInit s = .next { s with crc := 0xFFFFFFFF } ∧
    exec .crcHold s = .next s ∧
    exec (.crcUpd b) s = .next { s with crc := crc8 s.crc b } ∧
    crc8 0x00000000 0x00 = 0x00000000 ∧ crc8 0xFFFFFFFF 0xFF = 0x00FFFFFF ∧ crc8 0xFFFFFFFF 0x01 = 0x5AFA20E4

/-- R131: `CRC.LOADM` loads `CRC_MAGIC`, which is `CRC.INIT` and four updates with the magic's wire bytes, and is the
constant of the rule's table. -/
def Obligations.CrcLoadmLoadsMagicPreset : Prop :=
  ∀ s : State,
    exec .crcLoadm s = .next { s with crc := if s.cfg.endian = .le then 0xD9F3C4C1 else 0x0748E422 } ∧
    exec .crcLoadm s = execAll (.crcInit :: (wire s.cfg.endian 4 magic).map .crcUpd) s

/-- R135: the accumulator computes the standard CRC-32. The standard is written by its catalogue parameters, MSB first
over reflected bytes; the parameters are the rule's own quotation from general knowledge (log 10). -/
def Obligations.CrcOfBytesIsStandardCrc32 : Prop :=
  (∀ bs : List Byte, ~~~ bs.foldl crc8 0xFFFFFFFF = standardCrc32 bs) ∧
  standardCrc32 [0x31, 0x32, 0x33, 0x34, 0x35, 0x36, 0x37, 0x38, 0x39] = 0xCBF43926

/-- R262 with R136: two byte sequences that differ in exactly one byte, at the same place, end in different CRC states. So a
wrong address or payload byte changes the checksum of the frame; a wrong length byte changes what is framed (R263), and of
that nothing is said here. -/
def Obligations.OneWrongByteChangesChecksum : Prop :=
  ∀ (s : Word32) (before after : List Byte) (b b' : Byte),
    b ≠ b' → crcBytes s (before ++ b :: after) ≠ crcBytes s (before ++ b' :: after)

/-! ### The frame parser -/

/-- R156: after any four bytes, whatever the window held, it is those bytes assembled in target order; so it is the
magic exactly when they are its wire bytes. -/
def Obligations.WindowHoldsLastFourBytes : Prop :=
  ∀ (e : Endian) (w : Word32) (b0 b1 b2 b3 : Byte),
    let v := shiftIn e (shiftIn e (shiftIn e (shiftIn e w b0) b1) b2) b3
    v.setWidth 64 = assemble e 4 0 [b0, b1, b2, b3] ∧ (v = magic ↔ [b0, b1, b2, b3] = wire e 4 magic) ∧
    (∀ b : Byte, shiftIn .le w b = (w >>> 8) ||| (b.setWidth 32 <<< 24)) ∧
    (∀ b : Byte, shiftIn .be w b = (w <<< 8) ||| b.setWidth 32)

/-- R150, R151: `SEEK.RX` shifts the byte in; on the magic it enters the header, else it writes `win` only. -/
def Obligations.SeekRxShiftsOrEntersHeader : Prop :=
  ∀ (s : State) (b : Byte), s.st = .seek →
    (shiftIn s.cfg.endian s.win b = 0x55AA55AA →
      exec (.seekRx b) s =
        .next { s with win := 0x55AA55AA, crc := crcMagic s.cfg.endian, len := 0, addr := 0, k := 0, st := .hdr }) ∧
    (shiftIn s.cfg.endian s.win b ≠ 0x55AA55AA →
      exec (.seekRx b) s = .next { s with win := shiftIn s.cfg.endian s.win b })

/-- R157: a seek that starts with an empty window stays in `SEEK`, writing `win` only, as long as no byte sequence taken
ends in the magic's wire bytes, and leaves at the first byte that completes them; and noise before a magic never
prevents that: some part of noise and magic together, from the first byte on, leads into the header. -/
def Obligations.SeekLeavesAtFirstMagic : Prop :=
  ∀ (s : State), s.st = .seek → s.win = 0 →
    let m := wire s.cfg.endian 4 magic
    let entered := { s with win := magic, crc := crcMagic s.cfg.endian, len := 0, addr := 0, k := 0, st := .hdr }
    (∀ bs : List Byte, (∀ pre, pre <+: bs → ¬ m <:+ pre) →
      (∃ w, execAll (bs.map .seekRx) s = .next { s with win := w }) ∧
      ∀ b, m <:+ bs ++ [b] → execAll ((bs ++ [b]).map .seekRx) s = .next entered) ∧
    (∀ noise : List Byte, ∃ taken, taken <+: noise ++ m ∧ execAll (taken.map .seekRx) s = .next entered)

/-- R152, R153: `HDR.RX` updates the CRC and ORs the byte into its field; the last byte of the header goes to `ACK` or
`PAY` by the value of `len`. For `k` past the header, which R152 excludes, the lane is the model's choice (log 13). -/
def Obligations.HdrRxAssemblesField : Prop :=
  ∀ (s : State) (b : Byte), s.st = .hdr →
    let len' := if s.k.toNat < s.cfg.W then s.len ||| lane s.cfg s.k.toNat b else s.len
    let addr' := if s.k.toNat < s.cfg.W then s.addr else s.addr ||| lane s.cfg (s.k.toNat - s.cfg.W) b
    let t := { s with crc := crc8 s.crc b, len := len', addr := addr' }
    (s.k.toNat ≠ 2 * s.cfg.W - 1 → exec (.hdrRx b) s = .next { t with k := s.k + 1 }) ∧
    (s.k.toNat = 2 * s.cfg.W - 1 → len' = 0 → exec (.hdrRx b) s = .next { t with k := 0, st := .ack }) ∧
    (s.k.toNat = 2 * s.cfg.W - 1 → len' ≠ 0 →
      exec (.hdrRx b) s = .next { t with k := 0, j := 0, acc := 0, st := .pay })

/-- R92, R93: the `2*W` header bytes taken one by one give `len` and `addr` assembled in target byte order, unscaled,
and the packet kind by `len`. -/
def Obligations.HeaderBytesGiveLengthAndAddress : Prop :=
  ∀ (s : State) (l a : List Byte), s.st = .hdr → s.k = 0 → s.len = 0 → s.addr = 0 →
    l.length = s.cfg.W → a.length = s.cfg.W →
    let len' := assemble s.cfg.endian s.cfg.W 0 l
    let t := { s with len := len', addr := assemble s.cfg.endian s.cfg.W 0 a, crc := crcBytes s.crc (l ++ a), k := 0 }
    execAll ((l ++ a).map .hdrRx) s =
      .next (if len' = 0 then { t with st := .ack } else { t with j := 0, acc := 0, st := .pay })

/-- R154, R151, R155: `CHAIN.RX` takes four bytes and judges them once, at the fourth: the magic enters the header,
anything else resynchronises with an empty window. -/
def Obligations.ChainRxJudgesAtFourthByte : Prop :=
  ∀ (s : State) (b : Byte), s.st = .chain →
    let w := shiftIn s.cfg.endian s.win b
    (s.k.toNat < 3 → exec (.chainRx b) s = .next { s with win := w, k := s.k + 1 }) ∧
    (¬ s.k.toNat < 3 → w = 0x55AA55AA →
      exec (.chainRx b) s =
        .next { s with win := 0x55AA55AA, crc := crcMagic s.cfg.endian, len := 0, addr := 0, k := 0, st := .hdr }) ∧
    (¬ s.k.toNat < 3 → w ≠ 0x55AA55AA → exec (.chainRx b) s = .next { s with win := 0, k := 0, st := .seek })

/-! ### Payload and memory -/

/-- R180, R181, R182: `PAY.RX` puts the byte in its lane and issues a write when the word is full or the payload ends.
The address wraps modulo `2^AW` (R69) and is not rounded. -/
def Obligations.PayRxAssemblesAndIssuesWrites : Prop :=
  ∀ (s : State) (b : Byte), s.st = .pay →
    let p := s.j.toNat % s.cfg.W
    let v := s.acc ||| lane s.cfg p b
    let x := fit s.cfg (s.addr + (s.j - BitVec.ofNat 64 p))
    let t := { s with crc := crc8 s.crc b, j := fit s.cfg (s.j + 1) }
    (p = s.cfg.W - 1 ∨ fit s.cfg (s.j + 1) = s.len →
      exec (.payRx b) s = .next { t with wrAddr := x, wrData := v, acc := 0, st := .wr }) ∧
    (p ≠ s.cfg.W - 1 → fit s.cfg (s.j + 1) ≠ s.len → exec (.payRx b) s = .next { t with acc := v })

/-- R61: `MemWrite` puts byte `i` of the value, in target byte order, at `(a + i) mod 2^AW`, for `i` in `0..W-1`, and
every other address reads as before. The lane is `[8i+7:8i]` for `LE` and `[8(W-1-i)+7:8(W-1-i)]` for `BE`, and an
aligned write never wraps. -/
def Obligations.MemWritePlacesLanes : Prop :=
  ∀ (c : Cfg) (a v : Word) (m : Memory),
    (∀ i < c.W, Memory.read (memWrite c a v m) ((a.toNat + i) % 2 ^ c.bits) =
      some (v.extractLsb' (if c.endian = .le then 8 * i else 8 * (c.W - 1 - i)) 8)) ∧
    (∀ x, (∀ i < c.W, x ≠ (a.toNat + i) % 2 ^ c.bits) → Memory.read (memWrite c a v m) x = Memory.read m x) ∧
    (Fits c a → a.toNat % c.W = 0 → ∀ i < c.W, (a.toNat + i) % 2 ^ c.bits = a.toNat + i)

/-- R183: `WR.MEM`, on a write the memory accepts: aligned, or misaligned on a platform that splits it (R66). The write
is performed; after the last of the packet the block acknowledges, else it takes more payload. -/
def Obligations.WrMemPerformsPendingWrite : Prop :=
  ∀ s : State, s.st = .wr → (s.wrAddr.toNat % s.cfg.W = 0 ∨ s.cfg.misaligned = .split) →
    let t := { s with mem := memWrite s.cfg s.wrAddr s.wrData s.mem, out := s.out ++ [Output.write s.wrAddr s.wrData] }
    (s.j = s.len → exec .wrMem s = .next { t with k := 0, st := .ack }) ∧
    (s.j ≠ s.len → exec .wrMem s = .next { t with st := .pay })

/-- R183 with R61, in terms of bytes: the address stored to is the register `wr_addr`; its `W` bytes read as the lanes of
`wr_data` after `WR.MEM`, and every other byte reads as before. A request the memory never accepts (R66) stores nothing;
that `WR.MEM` answers a next state there too, with the fault on record, is the model's choice (log 5). -/
def Obligations.WrMemStoresExactlyTheWord : Prop :=
  ∀ s : State, s.st = .wr → ∃ t, exec .wrMem s = .next t ∧
    ((s.wrAddr.toNat % s.cfg.W = 0 ∨ s.cfg.misaligned = .split) →
      (∀ i < s.cfg.W, Memory.read t.mem (byteAddr s.cfg s.wrAddr i) = some (byteAt s.wrData (sh s.cfg.endian i s.cfg.W))) ∧
      (∀ x, (∀ i < s.cfg.W, x ≠ byteAddr s.cfg s.wrAddr i) → Memory.read t.mem x = Memory.read s.mem x)) ∧
    (s.wrAddr.toNat % s.cfg.W ≠ 0 → s.cfg.misaligned = .fault → ∀ x, Memory.read t.mem x = Memory.read s.mem x)

/-- R221, R66: a misaligned request under `fault` is recorded with its address and the block is stuck: no edge without
`rst` changes anything but the record, to which nothing but this fault is added; an edge with `rst` leaves the state,
writes nothing, and keeps the record. That the steps answer next states that hold the record, once for each fault, the
edge with `rst` included, is the model's choice (log 5); a step with no input left is such an edge too (log 6). -/
def Obligations.MisalignedWriteIsRecordedAndSticks : Prop :=
  ∀ s : State, s.st = .wr → s.cfg.misaligned = .fault → s.wrAddr.toNat % s.cfg.W ≠ 0 →
    let fs := onRecord s.faults (.misalignedWrite s.wrAddr)
    exec .wrMem s = .next { s with faults := fs } ∧
    (s.inputs = [] → step s = .next { s with faults := fs }) ∧
    ∀ p rest, s.inputs = .edge p :: rest →
      (p.rst = false → step s = .next { s with faults := fs, inputs := rest }) ∧
      (p.rst = true →
        step s = .next { State.resetWith s.cfg with
          faults := fs, mem := s.mem, rx := s.rx, out := s.out, inputs := rest })

/-- R222: in code 7 no selector decodes, and an edge without `rst` changes nothing but the record, to which nothing but
`IllegalState` is added. That such an edge answers a next state that holds the record is the model's choice (log 5); a
step with no input left is such an edge too (log 6). -/
def Obligations.ReservedStateRecordsIllegalState : Prop :=
  (∀ (ev : Event) (b : Byte), decodeStep (selector .reserved ev) b = .error .illegalState) ∧
  ∀ s : State, s.st = .reserved →
    (s.inputs = [] → step s = .next { s with faults := onRecord s.faults .illegalState }) ∧
    ∀ (p : Ports) (rest : List Input), s.inputs = .edge p :: rest → p.rst = false →
      step s = .next { s with faults := onRecord s.faults .illegalState, inputs := rest }

/-! ### Acknowledgment and hand-off -/

/-- R200, R201, R202: `ACK.TX` gives byte `k` of `NOT crc`; after the fourth, a DATA packet goes on to the chain check
and an ENTRY packet hands its address out. For `k` from 4 on, which R200 excludes, the value of the byte is the model's
choice (log 14). -/
def Obligations.AckTxGivesByteAndEndsPacket : Prop :=
  ∀ s : State, s.st = .ack →
    let t := { s with out := s.out ++ [Output.tx (byteAt (~~~ s.crc) (8 * s.k.toNat))] }
    (s.k.toNat < 3 → exec .ackTx s = .next { t with k := s.k + 1 }) ∧
    (¬ s.k.toNat < 3 → s.len ≠ 0 → exec .ackTx s = .next { t with k := 0, win := 0, st := .chain }) ∧
    (¬ s.k.toNat < 3 → s.len = 0 → exec .ackTx s = .next { t with entry := s.addr, done := true, st := .done })

/-- R95: the four acknowledgment bytes are `F[7:0]`, `F[15:8]`, `F[23:16]`, `F[31:24]` of `F = NOT crc`, in that order,
for both byte orders. -/
def Obligations.AckIsComplementLowByteFirst : Prop :=
  ∀ s : State, s.st = .ack → s.k = 0 →
    let f := ~~~ s.crc
    ∃ t, execAll [.ackTx, .ackTx, .ackTx, .ackTx] s = .next t ∧ t.crc = s.crc ∧
      t.out = s.out ++ [.tx (f.extractLsb' 0 8), .tx (f.extractLsb' 8 8), .tx (f.extractLsb' 16 8), .tx (f.extractLsb' 24 8)]

/-- R204: `DONE.RESTART` starts a new download; `entry` and everything else keep their values. -/
def Obligations.DoneRestartStartsSeek : Prop :=
  ∀ s : State, s.st = .done → exec .doneRestart s = .next { s with done := false, win := 0, k := 0, st := .seek }

/-- R205: outside `DONE` an edge with `restart = 1` is the same edge with `restart = 0`, whatever else happens at it. -/
def Obligations.RestartOutsideDoneIsIgnored : Prop :=
  ∀ (s : State) (p : Ports) (rest : List Input), s.st ≠ .done →
    step { s with inputs := .edge { p with restart := true } :: rest } =
      step { s with inputs := .edge { p with restart := false } :: rest }

/-! ### The packets -/

/-- R184, R185, R136: `PKT.DATA` from the start of a packet, aligned or on a platform that splits. The block makes
exactly the packet's writes, in order, then gives the four bytes of the standard CRC-32 of the frame, and waits for the
chain check; memory holds the payload at `addr + n` modulo `2^AW`, zero up to the end of the last word (the zero fill is
decided: U4, D11), and is otherwise as before; nothing else changes. That a whole packet is one instruction is the
model's choice (log 7), and the parameters of the standard CRC-32 are general knowledge (log 10). -/
def Obligations.DataPacketIsLoadedAndAcknowledged : Prop :=
  ∀ (s : State) (len addr : Word) (payload : List Byte),
    WellFormed s.cfg (.pktData len addr payload) = true → AtPacketStart s →
    (addr.toNat % s.cfg.W = 0 ∨ s.cfg.misaligned = .split) →
    let n := wordCount s.cfg payload
    let crcOut := standardCrc32 (encode s.cfg (.pktData len addr payload))
    ∃ m, exec (.pktData len addr payload) s =
        .next { s with
          st := .chain, win := 0, k := 0, len := len, addr := addr, j := len, acc := 0, crc := ~~~ crcOut,
          wrAddr := writeAddr s.cfg addr (n - 1), wrData := writeValue s.cfg payload (n - 1),
          mem := m, out := s.out ++ packetWrites s.cfg addr payload ++ ackOutputs crcOut } ∧
      (∀ i < n * s.cfg.W, Memory.read m (byteAddr s.cfg addr i) = some (payload.getD i 0)) ∧
      (∀ x, (∀ i < n * s.cfg.W, x ≠ byteAddr s.cfg addr i) → Memory.read m x = Memory.read s.mem x)

/-- R202, R136: `PKT.ENTRY` from the start of a packet is acknowledged with the standard CRC-32 of its frame and hands
its address out unmodified; it writes no memory. That a whole packet is one instruction is the model's choice (log 7), and
the parameters of the standard CRC-32 are general knowledge (log 10). -/
def Obligations.EntryPacketHandsOutAddress : Prop :=
  ∀ (s : State) (addr : Word), WellFormed s.cfg (.pktEntry addr) = true → AtPacketStart s →
    let crcOut := standardCrc32 (encode s.cfg (.pktEntry addr))
    exec (.pktEntry addr) s =
      .next { s with
        st := .done, win := magic, k := 3, len := 0, addr := addr, crc := ~~~ crcOut, entry := addr, done := true,
        out := s.out ++ ackOutputs crcOut }

/-- R66, R221: a DATA packet to a misaligned address under `fault` stops at its first write: the request stays pending,
its fault is on record, nothing is written or acknowledged, and the rest of the payload stays with the transport. That a
packet is one instruction (log 7) and that the refused write leaves a next state with the fault on record (log 5) are the
model's choices. -/
def Obligations.MisalignedDataPacketIsNeverAcknowledged : Prop :=
  ∀ (s : State) (len addr : Word) (payload : List Byte),
    WellFormed s.cfg (.pktData len addr payload) = true → AtPacketStart s →
    addr.toNat % s.cfg.W ≠ 0 → s.cfg.misaligned = .fault →
    ∃ t, exec (.pktData len addr payload) s = .next t ∧ t.st = .wr ∧ t.wrAddr = addr ∧
      t.wrData = writeValue s.cfg payload 0 ∧ .misalignedWrite addr ∈ t.faults ∧ t.mem = s.mem ∧ t.out = s.out ∧
      t.rx = payload.drop s.cfg.W ∧ t.done = s.done

/-- R101, R97: in `DONE` a packet is not taken: its bytes stay with the transport, after those already there. That a
packet instruction answers that state (log 7) and that the transport's bytes stand in the state (log 6) are the model's
choices. -/
def Obligations.PacketAfterDoneStaysWithTransport : Prop :=
  ∀ (s : State) (len addr : Word) (payload : List Byte), s.st = .done →
    exec (.pktData len addr payload) s = .next { s with rx := s.rx ++ encode s.cfg (.pktData len addr payload) } ∧
    exec (.pktEntry addr) s = .next { s with rx := s.rx ++ encode s.cfg (.pktEntry addr) }

/-- The model's composition of a packet (log 7): sending any bytes, a packet or not (R97, R103), is what some number of
clock edges do at which every hold is lifted (R223), after the bytes have been added to the transport's; and a packet
instruction is the sending of its frame. -/
def Obligations.PacketIsRunOfReadyEdges : Prop :=
  (∀ (s : State) (bytes : List Byte), ∃ n,
    Host.Core.run Sys2Proof.core n
      { s with rx := s.rx ++ bytes, inputs := List.replicate n (.edge readyPorts) ++ s.inputs } =
      .next (sendBytes bytes s)) ∧
  (∀ (s : State) (i : Instr), i.fmt = .frame → exec i s = .next (sendBytes (encode s.cfg i) s))

/-- R223, and the model's "until the block has no more to do" (log 7): after any bytes have been sent, from any state,
one more edge with every hold lifted changes nothing. So bytes the block takes are never left half served. -/
def Obligations.SentBytesAreServedToTheEnd : Prop :=
  ∀ (s : State) (bytes : List Byte) (rest : List Input),
    let t := sendBytes bytes s
    step { t with inputs := .edge readyPorts :: rest } = .next { t with inputs := rest }

/-! ### The step -/

/-- R98, R101: a step at a clock edge without reset runs the instruction that the selector word and the transport's
oldest byte decode to, with that byte taken from the transport. The layout of a word in bytes is the model's (log 8). -/
def Obligations.StepRunsTheSelectedInstruction : Prop :=
  ∀ (s : State) (p : Ports) (rest : List Input) (ev : Event) (i : Instr) (r : List Byte),
    s.inputs = .edge p :: rest → p.rst = false → event p s = some ev →
    decode .step s.cfg (stepByte s.st ev :: s.rx) = .ok (i, r) →
    step s = exec i { s with inputs := rest, rx := if ev = .rx then s.rx.tail else s.rx }

/-- R98, R100, R101: which instruction each state runs, by its ports. -/
def Obligations.EdgeRunsTheStatesInstruction : Prop :=
  ∀ (s : State) (p : Ports) (rest : List Input), s.inputs = .edge p :: rest → p.rst = false →
    (∀ b r, s.rx = b :: r → p.rxValid = true →
      (s.st = .seek → step s = exec (.seekRx b) { s with inputs := rest, rx := r }) ∧
      (s.st = .hdr → step s = exec (.hdrRx b) { s with inputs := rest, rx := r }) ∧
      (s.st = .pay → step s = exec (.payRx b) { s with inputs := rest, rx := r }) ∧
      (s.st = .chain → step s = exec (.chainRx b) { s with inputs := rest, rx := r })) ∧
    (s.st = .wr → p.memReady = true → (s.wrAddr.toNat % s.cfg.W = 0 ∨ s.cfg.misaligned = .split) →
      step s = exec .wrMem { s with inputs := rest }) ∧
    (s.st = .ack → p.txReady = true → step s = exec .ackTx { s with inputs := rest }) ∧
    (s.st = .done → p.restart = true → step s = exec .doneRestart { s with inputs := rest })

/-- R99, R103, R97: the other two formats. A word at the CRC sub-unit's own inputs, and bytes sent that are one packet, run
as the instruction they decode to; any bytes sent, one packet or noise or several packets or half of one, are sent to the
block and served. That these are inputs of their own is the model's choice (log 6), and so is the serving (log 7). -/
def Obligations.StepRunsCrcOpsAndPackets : Prop :=
  ∀ (s : State) (rest : List Input),
    (∀ op din, s.inputs = .crcOp op din :: rest →
      ∃ i, decode .crcop s.cfg [crcOpByte op, din] = .ok (i, []) ∧ step s = exec i { s with inputs := rest }) ∧
    (∀ i, i.fmt = .frame → WellFormed s.cfg i = true → s.inputs = .stream (encode s.cfg i) :: rest →
      step s = exec i { s with inputs := rest }) ∧
    (∀ bytes, s.inputs = .stream bytes :: rest → step s = .next (sendBytes bytes { s with inputs := rest }))

/-- R220: nothing stops the machine: whatever the state and the inputs, a step answers a next state. In the two states
with a model fault (R221, R222), where the block has no enabled step, that the step answers the stuck state with the fault
on record is the model's choice (log 5); that no step meets the refusal of log 11 follows. -/
def Obligations.StepAlwaysAnswersNext : Prop :=
  ∀ s : State, ∃ t, step s = .next t

/-- R250, R251: an edge with `rst = 1` gives the reset state of the registers, whatever the state and the other inputs;
a handshake that completes at that edge completes on its far side only. The record of faults is kept (R221); that the
edge itself records the fault of a state that has one, and nothing else, is the model's choice (log 5). -/
def Obligations.ResetEdgeClearsRegisters : Prop :=
  ∀ (s : State) (p : Ports) (rest : List Input), s.inputs = .edge p :: rest → p.rst = true →
    let written := memValid s && p.memReady && !neverAccepted s
    step s = .next
      { cfg := s.cfg, st := .seek, win := 0, k := 0, len := 0, addr := 0, j := 0, acc := 0, crc := 0xFFFFFFFF,
        wrAddr := 0, wrData := 0, entry := 0, done := false,
        faults := if s.st = .reserved then onRecord s.faults .illegalState
          else if neverAccepted s then onRecord s.faults (.misalignedWrite s.wrAddr)
          else s.faults,
        mem := if written then memWrite s.cfg s.wrAddr s.wrData s.mem else s.mem,
        rx := if rxReady s && p.rxValid then s.rx.tail else s.rx,
        out := s.out ++ (if txValid s && p.txReady then [Output.tx (txData s)]
          else if written then [Output.write s.wrAddr s.wrData] else []),
        inputs := rest }

/-- R250: the registers right after reset. The rest of the state after reset is the model's (log 2, log 3, log 4). -/
def Obligations.ResetStateRegisters : Prop :=
  ∀ c : Cfg,
    let s := State.resetWith c
    s.st = .seek ∧ s.win = 0 ∧ s.k = 0 ∧ s.len = 0 ∧ s.addr = 0 ∧ s.j = 0 ∧ s.acc = 0 ∧ s.crc = 0xFFFFFFFF ∧
      s.wrAddr = 0 ∧ s.wrData = 0 ∧ s.entry = 0 ∧ s.done = false ∧ stat s = 0 ∧ s.cfg = c ∧
      State.reset = State.resetWith Cfg.default

/-- R223, R234: each state waits for its own agent, without bound: while that agent does not lift its hold, an edge
changes no register, whatever the others do. A step with no input left is an edge at which nothing is asserted; that is
the model's choice (log 6), and every state holds there. -/
def Obligations.HoldKeepsEveryRegister : Prop :=
  ∀ s : State, s.st ≠ .reserved → (s.st = .wr → s.wrAddr.toNat % s.cfg.W = 0 ∨ s.cfg.misaligned = .split) →
    (s.inputs = [] → step s = .next s) ∧
    ∀ (p : Ports) (rest : List Input), s.inputs = .edge p :: rest → p.rst = false →
      (s.st = .seek ∨ s.st = .hdr ∨ s.st = .pay ∨ s.st = .chain → p.rxValid = false ∨ s.rx = []) →
      (s.st = .wr → p.memReady = false) → (s.st = .ack → p.txReady = false) → (s.st = .done → p.restart = false) →
      step s = .next { s with inputs := rest }

/-- R101, R225: the output functions, and that in each state at most one of `rx_ready`, `tx_valid`, `mem_valid` is 1. The
value of `tx_data` for `k` from 4 on is the model's choice (log 14). -/
def Obligations.OutputsAreFunctionsOfRegisters : Prop :=
  ∀ s : State,
    (rxReady s = true ↔ s.st = .seek ∨ s.st = .hdr ∨ s.st = .pay ∨ s.st = .chain) ∧
    (txValid s = true ↔ s.st = .ack) ∧ (memValid s = true ↔ s.st = .wr) ∧
    txData s = byteAt (~~~ s.crc) (8 * s.k.toNat) ∧ memAddr s = s.wrAddr ∧ memWdata s = s.wrData ∧
    doneOut s = s.done ∧ entryOut s = s.entry ∧ stat s = BitVec.ofBool s.done ++ s.st.code ∧
    ¬ (rxReady s = true ∧ txValid s = true) ∧ ¬ (rxReady s = true ∧ memValid s = true) ∧
    ¬ (txValid s = true ∧ memValid s = true)

/-- R101: an offer stands, with its data, until its transfer completes or `rst` comes. -/
def Obligations.OffersAreHeldUntilTaken : Prop :=
  ∀ (s t : State) (p : Ports) (rest : List Input), s.inputs = .edge p :: rest → p.rst = false → step s = .next t →
    (txValid s = true → p.txReady = false → txValid t = true ∧ txData t = txData s) ∧
    (memValid s = true → (p.memReady = false ∨ neverAccepted s = true) →
      memValid t = true ∧ memAddr t = memAddr s ∧ memWdata t = memWdata s)

/-! ### Rules about the whole machine -/

/-- R26: the state after reset meets the invariants, with any parameters. -/
def Obligations.ResetMeetsTheInvariants : Prop :=
  ∀ c : Cfg, Inv (State.resetWith c)

/-- R26: every step keeps the invariants, from every state that has them: clock edges with any ports, whole streams,
the CRC sub-unit's operations, other agents' writes. The invariant is R26's with three clauses of the model's (log 9). -/
def Obligations.EveryStepKeepsTheInvariants : Prop :=
  ∀ s t : State, Inv s → step s = .next t → Inv t

/-- R26, over runs: whatever is sent and whatever the agents do, every state reached from reset meets the invariants. -/
def Obligations.EveryReachableStateMeetsTheInvariants : Prop :=
  ∀ (c : Cfg) (sent : List Byte) (ins : List Input) (n : Nat) (t : State),
    Host.Core.run Sys2Proof.core n { State.resetWith c with rx := sent, inputs := ins } = .next t → Inv t

/-- R25: the only writers of `crc` at an edge are the magic preset, the update with the byte taken in `HDR` or `PAY`, and
reset. -/
def Obligations.OnlyTheNamedWritersChangeCrc : Prop :=
  ∀ (s t : State) (p : Ports) (rest : List Input), s.inputs = .edge p :: rest → step s = .next t →
    t.crc = s.crc ∨ (p.rst = true ∧ t.crc = 0xFFFFFFFF) ∨
    ((s.st = .seek ∨ s.st = .chain) ∧ t.st = .hdr ∧ t.crc = crcMagic s.cfg.endian) ∨
    ((s.st = .hdr ∨ s.st = .pay) ∧ ∃ b r, s.rx = b :: r ∧ t.rx = r ∧ t.crc = crc8 s.crc b)

/-- R24, R206: `done` rises only when the last acknowledgment byte of an ENTRY packet is taken, with that packet's
address in `entry`, and falls only by `restart` in `DONE` or by reset; no other condition ends a download. -/
def Obligations.DoneRisesOnlyAfterEntryPacket : Prop :=
  ∀ (s t : State) (p : Ports) (rest : List Input), s.inputs = .edge p :: rest → step s = .next t →
    (s.done = false → t.done = true →
      s.st = .ack ∧ s.len = 0 ∧ 3 ≤ s.k.toNat ∧ p.txReady = true ∧ t.st = .done ∧ t.entry = s.addr) ∧
    (s.done = true → t.done = false → p.rst = true ∨ (s.st = .done ∧ p.restart = true))

/-- R102, R60: an edge changes memory only where a request is pending and the memory takes it, and then by exactly that
write. -/
def Obligations.MemoryChangesOnlyByAcceptedWrite : Prop :=
  ∀ (s t : State) (p : Ports) (rest : List Input), s.inputs = .edge p :: rest → step s = .next t →
    t.mem = s.mem ∨
    (memValid s = true ∧ p.memReady = true ∧ neverAccepted s = false ∧
      t.mem = memWrite s.cfg (memAddr s) (memWdata s) s.mem)

/-- R72: while a write is pending no RX byte is taken and no TX byte is given; and the acknowledgment is entered only
from a header with `len = 0` or by the acceptance of the packet's last write. -/
def Obligations.AcknowledgmentFollowsLastWrite : Prop :=
  ∀ (s t : State) (p : Ports) (rest : List Input), s.inputs = .edge p :: rest → p.rst = false → step s = .next t →
    (s.st = .wr → t.rx = s.rx ∧ (t.out = s.out ∨ t.out = s.out ++ [Output.write s.wrAddr s.wrData])) ∧
    (s.st ≠ .ack → t.st = .ack →
      (s.st = .hdr ∧ t.len = 0) ∨ (s.st = .wr ∧ s.j = s.len ∧ t.out = s.out ++ [Output.write s.wrAddr s.wrData]))

/-- R183, R102: `WR.MEM` is the only step rule or CRC operation that stores; after each of the others every address reads as
before. -/
def Obligations.OtherInstructionsLeaveMemory : Prop :=
  ∀ (s t : State) (i : Instr) (a : Nat), i.fmt ≠ .frame → i ≠ .wrMem → exec i s = .next t →
    Memory.read t.mem a = Memory.read s.mem a

/-- R73: a byte another agent writes between the block's steps is what that address then reads; nothing else changes. That
such a write is an input of the model is its choice (log 6). -/
def Obligations.OtherAgentsWriteChangesOneByte : Prop :=
  ∀ (s : State) (a : Word) (b : Byte) (rest : List Input), s.inputs = .otherWrite a b :: rest →
    ∃ m, step s = .next { s with mem := m, inputs := rest } ∧
      Memory.read m (a.toNat % 2 ^ s.cfg.bits) = some b ∧
      ∀ x, x ≠ a.toNat % 2 ^ s.cfg.bits → Memory.read m x = Memory.read s.mem x

/-- R6, R221: no step changes a parameter, erases a recorded fault, or takes back what the block has given. -/
def Obligations.ParametersFaultsAndOutputsAreKept : Prop :=
  ∀ s t : State, step s = .next t → t.cfg = s.cfg ∧ s.faults <+: t.faults ∧ s.out <+: t.out

/-! ### Encoding -/

/-- R90 to R94, R98, R99: decoding the encoding of a well-formed instruction gives it back, with whatever bytes follow,
for every instruction, every operand value and all parameters. The layout of STEP and CRCOP words in bytes is the model's
(log 8). -/
def Obligations.DecodeOfEncodeIsTheInstruction : Prop :=
  ∀ (c : Cfg) (i : Instr) (rest : List Byte), WellFormed c i = true → decode i.fmt c (encode c i ++ rest) = .ok (i, rest)

/-- R90, R92, R93, R94: bytes that decode as a packet are exactly that packet's encoding and what follows, and the packet
is well formed: no frame is read from bytes that are another. -/
def Obligations.DecodedFrameIsItsEncoding : Prop :=
  ∀ (c : Cfg) (bs rest : List Byte) (i : Instr), decode .frame c bs = .ok (i, rest) →
    WellFormed c i = true ∧ i.fmt = .frame ∧ bs = encode c i ++ rest

/-- R13: `WIRE` and the field assembly of R12 are inverse of each other, for fields of up to eight bytes. -/
def Obligations.WireAndAssemblyAreInverse : Prop :=
  ∀ (e : Endian) (n : Nat), n ≤ 8 →
    (∀ v : Word, v.toNat < 2 ^ (8 * n) → assemble e n 0 (wire e n v) = v) ∧
    (∀ bs : List Byte, bs.length = n → wire e n (assemble e n 0 bs) = bs)

/-- R98: the selector table. Of the 32 selectors exactly seven pick a step, the four with `st = 7` are illegal, `restart`
outside `DONE` is a hint, and no other can occur. -/
def Obligations.SelectorTable : Prop :=
  ∀ b : Byte,
    decodeStep 0b00000 b = .ok (.seekRx b) ∧ decodeStep 0b00100 b = .ok (.hdrRx b) ∧
    decodeStep 0b01000 b = .ok (.payRx b) ∧ decodeStep 0b01110 b = .ok .wrMem ∧ decodeStep 0b10001 b = .ok .ackTx ∧
    decodeStep 0b10100 b = .ok (.chainRx b) ∧ decodeStep 0b11011 b = .ok .doneRestart ∧
    (∀ ev, decodeStep (Fsm.code .reserved ++ Event.code ev) b = .error .illegalState) ∧
    (∀ st, st ≠ .done → st ≠ .reserved → decodeStep (st.code ++ Event.code .restart) b = .error (.restartHint st)) ∧
    (∀ st ev, ev ≠ .restart → st ≠ .reserved → (st, ev) ∉ [(Fsm.seek, Event.rx), (.hdr, .rx), (.pay, .rx), (.wr, .mem),
        (.ack, .tx), (.chain, .rx)] → decodeStep (st.code ++ ev.code) b = .error (.cannotOccur st ev))

/-- Words written out decode to the instruction they stand for: one packet of each kind and byte order from R90 and R91,
selectors from R98, a CRC operation code from R99. The container of a selector and of an operation code in bytes, and how
a table word is read, are the model's choices (log 8). -/
def Obligations.WrittenOutWordsDecode : Prop :=
  decode .frame ⟨.w4, .le, .fault⟩ [0xAA, 0x55, 0xAA, 0x55, 0x02, 0, 0, 0, 0x00, 0x10, 0, 0, 0xDE, 0xAD] =
    .ok (.pktData 2 0x1000 [0xDE, 0xAD], []) ∧
  decode .frame ⟨.w4, .be, .fault⟩ [0x55, 0xAA, 0x55, 0xAA, 0, 0, 0, 0, 0x80, 0, 0, 0] = .ok (.pktEntry 0x80000000, []) ∧
  decode .step Cfg.default [0b00000100, 0x08] = .ok (.hdrRx 0x08, []) ∧
  decode .step Cfg.default [0b00001110] = .ok (.wrMem, []) ∧
  decode .crcop Cfg.default [0b11, 0x01] = .ok (.crcUpd 0x01, []) ∧
  decodeTableWord 8 0x11 = some .ackTx
end

