-- ==== Sys2Proof/Laws/State.lean ====
section
/-! SUPPORT. For each named update of the state, one simp lemma per field: the value it writes, or that it leaves the
field alone. No later proof unfolds a record update. -/

namespace Sys2Proof.Machine

variable (s : State)

@[simp] theorem State.dropRx_cfg : (s.dropRx).cfg = s.cfg := rfl
@[simp] theorem State.dropRx_st : (s.dropRx).st = s.st := rfl
@[simp] theorem State.dropRx_win : (s.dropRx).win = s.win := rfl
@[simp] theorem State.dropRx_k : (s.dropRx).k = s.k := rfl
@[simp] theorem State.dropRx_len : (s.dropRx).len = s.len := rfl
@[simp] theorem State.dropRx_addr : (s.dropRx).addr = s.addr := rfl
@[simp] theorem State.dropRx_j : (s.dropRx).j = s.j := rfl
@[simp] theorem State.dropRx_acc : (s.dropRx).acc = s.acc := rfl
@[simp] theorem State.dropRx_crc : (s.dropRx).crc = s.crc := rfl
@[simp] theorem State.dropRx_wrAddr : (s.dropRx).wrAddr = s.wrAddr := rfl
@[simp] theorem State.dropRx_wrData : (s.dropRx).wrData = s.wrData := rfl
@[simp] theorem State.dropRx_entry : (s.dropRx).entry = s.entry := rfl
@[simp] theorem State.dropRx_done : (s.dropRx).done = s.done := rfl
@[simp] theorem State.dropRx_faults : (s.dropRx).faults = s.faults := rfl
@[simp] theorem State.dropRx_mem : (s.dropRx).mem = s.mem := rfl
@[simp] theorem State.dropRx_rx : (s.dropRx).rx = s.rx.tail := rfl
@[simp] theorem State.dropRx_out : (s.dropRx).out = s.out := rfl
@[simp] theorem State.dropRx_inputs : (s.dropRx).inputs = s.inputs := rfl

@[simp] theorem State.giveTx_cfg (b : Byte) : (s.giveTx b).cfg = s.cfg := rfl
@[simp] theorem State.giveTx_st (b : Byte) : (s.giveTx b).st = s.st := rfl
@[simp] theorem State.giveTx_win (b : Byte) : (s.giveTx b).win = s.win := rfl
@[simp] theorem State.giveTx_k (b : Byte) : (s.giveTx b).k = s.k := rfl
@[simp] theorem State.giveTx_len (b : Byte) : (s.giveTx b).len = s.len := rfl
@[simp] theorem State.giveTx_addr (b : Byte) : (s.giveTx b).addr = s.addr := rfl
@[simp] theorem State.giveTx_j (b : Byte) : (s.giveTx b).j = s.j := rfl
@[simp] theorem State.giveTx_acc (b : Byte) : (s.giveTx b).acc = s.acc := rfl
@[simp] theorem State.giveTx_crc (b : Byte) : (s.giveTx b).crc = s.crc := rfl
@[simp] theorem State.giveTx_wrAddr (b : Byte) : (s.giveTx b).wrAddr = s.wrAddr := rfl
@[simp] theorem State.giveTx_wrData (b : Byte) : (s.giveTx b).wrData = s.wrData := rfl
@[simp] theorem State.giveTx_entry (b : Byte) : (s.giveTx b).entry = s.entry := rfl
@[simp] theorem State.giveTx_done (b : Byte) : (s.giveTx b).done = s.done := rfl
@[simp] theorem State.giveTx_faults (b : Byte) : (s.giveTx b).faults = s.faults := rfl
@[simp] theorem State.giveTx_mem (b : Byte) : (s.giveTx b).mem = s.mem := rfl
@[simp] theorem State.giveTx_rx (b : Byte) : (s.giveTx b).rx = s.rx := rfl
@[simp] theorem State.giveTx_out (b : Byte) : (s.giveTx b).out = s.out ++ [.tx b] := rfl
@[simp] theorem State.giveTx_inputs (b : Byte) : (s.giveTx b).inputs = s.inputs := rfl

@[simp] theorem State.acceptWrite_cfg : (s.acceptWrite).cfg = s.cfg := rfl
@[simp] theorem State.acceptWrite_st : (s.acceptWrite).st = s.st := rfl
@[simp] theorem State.acceptWrite_win : (s.acceptWrite).win = s.win := rfl
@[simp] theorem State.acceptWrite_k : (s.acceptWrite).k = s.k := rfl
@[simp] theorem State.acceptWrite_len : (s.acceptWrite).len = s.len := rfl
@[simp] theorem State.acceptWrite_addr : (s.acceptWrite).addr = s.addr := rfl
@[simp] theorem State.acceptWrite_j : (s.acceptWrite).j = s.j := rfl
@[simp] theorem State.acceptWrite_acc : (s.acceptWrite).acc = s.acc := rfl
@[simp] theorem State.acceptWrite_crc : (s.acceptWrite).crc = s.crc := rfl
@[simp] theorem State.acceptWrite_wrAddr : (s.acceptWrite).wrAddr = s.wrAddr := rfl
@[simp] theorem State.acceptWrite_wrData : (s.acceptWrite).wrData = s.wrData := rfl
@[simp] theorem State.acceptWrite_entry : (s.acceptWrite).entry = s.entry := rfl
@[simp] theorem State.acceptWrite_done : (s.acceptWrite).done = s.done := rfl
@[simp] theorem State.acceptWrite_faults : (s.acceptWrite).faults = s.faults := rfl
@[simp] theorem State.acceptWrite_mem : (s.acceptWrite).mem = memWrite s.cfg s.wrAddr s.wrData s.mem := rfl
@[simp] theorem State.acceptWrite_rx : (s.acceptWrite).rx = s.rx := rfl
@[simp] theorem State.acceptWrite_out : (s.acceptWrite).out = s.out ++ [.write s.wrAddr s.wrData] := rfl
@[simp] theorem State.acceptWrite_inputs : (s.acceptWrite).inputs = s.inputs := rfl

@[simp] theorem State.driveCrc_cfg (op : CrcOp) (d : Byte) : (s.driveCrc op d).cfg = s.cfg := rfl
@[simp] theorem State.driveCrc_st (op : CrcOp) (d : Byte) : (s.driveCrc op d).st = s.st := rfl
@[simp] theorem State.driveCrc_win (op : CrcOp) (d : Byte) : (s.driveCrc op d).win = s.win := rfl
@[simp] theorem State.driveCrc_k (op : CrcOp) (d : Byte) : (s.driveCrc op d).k = s.k := rfl
@[simp] theorem State.driveCrc_len (op : CrcOp) (d : Byte) : (s.driveCrc op d).len = s.len := rfl
@[simp] theorem State.driveCrc_addr (op : CrcOp) (d : Byte) : (s.driveCrc op d).addr = s.addr := rfl
@[simp] theorem State.driveCrc_j (op : CrcOp) (d : Byte) : (s.driveCrc op d).j = s.j := rfl
@[simp] theorem State.driveCrc_acc (op : CrcOp) (d : Byte) : (s.driveCrc op d).acc = s.acc := rfl
@[simp] theorem State.driveCrc_crc (op : CrcOp) (d : Byte) : (s.driveCrc op d).crc = crcUnit s.cfg.endian op d s.crc := rfl
@[simp] theorem State.driveCrc_wrAddr (op : CrcOp) (d : Byte) : (s.driveCrc op d).wrAddr = s.wrAddr := rfl
@[simp] theorem State.driveCrc_wrData (op : CrcOp) (d : Byte) : (s.driveCrc op d).wrData = s.wrData := rfl
@[simp] theorem State.driveCrc_entry (op : CrcOp) (d : Byte) : (s.driveCrc op d).entry = s.entry := rfl
@[simp] theorem State.driveCrc_done (op : CrcOp) (d : Byte) : (s.driveCrc op d).done = s.done := rfl
@[simp] theorem State.driveCrc_faults (op : CrcOp) (d : Byte) : (s.driveCrc op d).faults = s.faults := rfl
@[simp] theorem State.driveCrc_mem (op : CrcOp) (d : Byte) : (s.driveCrc op d).mem = s.mem := rfl
@[simp] theorem State.driveCrc_rx (op : CrcOp) (d : Byte) : (s.driveCrc op d).rx = s.rx := rfl
@[simp] theorem State.driveCrc_out (op : CrcOp) (d : Byte) : (s.driveCrc op d).out = s.out := rfl
@[simp] theorem State.driveCrc_inputs (op : CrcOp) (d : Byte) : (s.driveCrc op d).inputs = s.inputs := rfl

@[simp] theorem State.clearRegs_cfg : (s.clearRegs).cfg = s.cfg := rfl
@[simp] theorem State.clearRegs_st : (s.clearRegs).st = .seek := rfl
@[simp] theorem State.clearRegs_win : (s.clearRegs).win = 0 := rfl
@[simp] theorem State.clearRegs_k : (s.clearRegs).k = 0 := rfl
@[simp] theorem State.clearRegs_len : (s.clearRegs).len = 0 := rfl
@[simp] theorem State.clearRegs_addr : (s.clearRegs).addr = 0 := rfl
@[simp] theorem State.clearRegs_j : (s.clearRegs).j = 0 := rfl
@[simp] theorem State.clearRegs_acc : (s.clearRegs).acc = 0 := rfl
@[simp] theorem State.clearRegs_crc : (s.clearRegs).crc = crcInit := rfl
@[simp] theorem State.clearRegs_wrAddr : (s.clearRegs).wrAddr = 0 := rfl
@[simp] theorem State.clearRegs_wrData : (s.clearRegs).wrData = 0 := rfl
@[simp] theorem State.clearRegs_entry : (s.clearRegs).entry = 0 := rfl
@[simp] theorem State.clearRegs_done : (s.clearRegs).done = false := rfl
@[simp] theorem State.clearRegs_faults : (s.clearRegs).faults = s.faults := rfl
@[simp] theorem State.clearRegs_mem : (s.clearRegs).mem = s.mem := rfl
@[simp] theorem State.clearRegs_rx : (s.clearRegs).rx = s.rx := rfl
@[simp] theorem State.clearRegs_out : (s.clearRegs).out = s.out := rfl
@[simp] theorem State.clearRegs_inputs : (s.clearRegs).inputs = s.inputs := rfl

@[simp] theorem State.enterHdr_cfg : (s.enterHdr).cfg = s.cfg := rfl
@[simp] theorem State.enterHdr_st : (s.enterHdr).st = .hdr := rfl
@[simp] theorem State.enterHdr_win : (s.enterHdr).win = s.win := rfl
@[simp] theorem State.enterHdr_k : (s.enterHdr).k = 0 := rfl
@[simp] theorem State.enterHdr_len : (s.enterHdr).len = 0 := rfl
@[simp] theorem State.enterHdr_addr : (s.enterHdr).addr = 0 := rfl
@[simp] theorem State.enterHdr_j : (s.enterHdr).j = s.j := rfl
@[simp] theorem State.enterHdr_acc : (s.enterHdr).acc = s.acc := rfl
@[simp] theorem State.enterHdr_crc : (s.enterHdr).crc = crcMagic s.cfg.endian := rfl
@[simp] theorem State.enterHdr_wrAddr : (s.enterHdr).wrAddr = s.wrAddr := rfl
@[simp] theorem State.enterHdr_wrData : (s.enterHdr).wrData = s.wrData := rfl
@[simp] theorem State.enterHdr_entry : (s.enterHdr).entry = s.entry := rfl
@[simp] theorem State.enterHdr_done : (s.enterHdr).done = s.done := rfl
@[simp] theorem State.enterHdr_faults : (s.enterHdr).faults = s.faults := rfl
@[simp] theorem State.enterHdr_mem : (s.enterHdr).mem = s.mem := rfl
@[simp] theorem State.enterHdr_rx : (s.enterHdr).rx = s.rx := rfl
@[simp] theorem State.enterHdr_out : (s.enterHdr).out = s.out := rfl
@[simp] theorem State.enterHdr_inputs : (s.enterHdr).inputs = s.inputs := rfl

@[simp] theorem State.resync_cfg : (s.resync).cfg = s.cfg := rfl
@[simp] theorem State.resync_st : (s.resync).st = .seek := rfl
@[simp] theorem State.resync_win : (s.resync).win = 0 := rfl
@[simp] theorem State.resync_k : (s.resync).k = 0 := rfl
@[simp] theorem State.resync_len : (s.resync).len = s.len := rfl
@[simp] theorem State.resync_addr : (s.resync).addr = s.addr := rfl
@[simp] theorem State.resync_j : (s.resync).j = s.j := rfl
@[simp] theorem State.resync_acc : (s.resync).acc = s.acc := rfl
@[simp] theorem State.resync_crc : (s.resync).crc = s.crc := rfl
@[simp] theorem State.resync_wrAddr : (s.resync).wrAddr = s.wrAddr := rfl
@[simp] theorem State.resync_wrData : (s.resync).wrData = s.wrData := rfl
@[simp] theorem State.resync_entry : (s.resync).entry = s.entry := rfl
@[simp] theorem State.resync_done : (s.resync).done = s.done := rfl
@[simp] theorem State.resync_faults : (s.resync).faults = s.faults := rfl
@[simp] theorem State.resync_mem : (s.resync).mem = s.mem := rfl
@[simp] theorem State.resync_rx : (s.resync).rx = s.rx := rfl
@[simp] theorem State.resync_out : (s.resync).out = s.out := rfl
@[simp] theorem State.resync_inputs : (s.resync).inputs = s.inputs := rfl

@[simp] theorem State.issueWrite_cfg (x v : Word) : (s.issueWrite x v).cfg = s.cfg := rfl
@[simp] theorem State.issueWrite_st (x v : Word) : (s.issueWrite x v).st = .wr := rfl
@[simp] theorem State.issueWrite_win (x v : Word) : (s.issueWrite x v).win = s.win := rfl
@[simp] theorem State.issueWrite_k (x v : Word) : (s.issueWrite x v).k = s.k := rfl
@[simp] theorem State.issueWrite_len (x v : Word) : (s.issueWrite x v).len = s.len := rfl
@[simp] theorem State.issueWrite_addr (x v : Word) : (s.issueWrite x v).addr = s.addr := rfl
@[simp] theorem State.issueWrite_j (x v : Word) : (s.issueWrite x v).j = s.j := rfl
@[simp] theorem State.issueWrite_acc (x v : Word) : (s.issueWrite x v).acc = 0 := rfl
@[simp] theorem State.issueWrite_crc (x v : Word) : (s.issueWrite x v).crc = s.crc := rfl
@[simp] theorem State.issueWrite_wrAddr (x v : Word) : (s.issueWrite x v).wrAddr = fit s.cfg x := rfl
@[simp] theorem State.issueWrite_wrData (x v : Word) : (s.issueWrite x v).wrData = v := rfl
@[simp] theorem State.issueWrite_entry (x v : Word) : (s.issueWrite x v).entry = s.entry := rfl
@[simp] theorem State.issueWrite_done (x v : Word) : (s.issueWrite x v).done = s.done := rfl
@[simp] theorem State.issueWrite_faults (x v : Word) : (s.issueWrite x v).faults = s.faults := rfl
@[simp] theorem State.issueWrite_mem (x v : Word) : (s.issueWrite x v).mem = s.mem := rfl
@[simp] theorem State.issueWrite_rx (x v : Word) : (s.issueWrite x v).rx = s.rx := rfl
@[simp] theorem State.issueWrite_out (x v : Word) : (s.issueWrite x v).out = s.out := rfl
@[simp] theorem State.issueWrite_inputs (x v : Word) : (s.issueWrite x v).inputs = s.inputs := rfl

@[simp] theorem State.terminate_cfg : (s.terminate).cfg = s.cfg := rfl
@[simp] theorem State.terminate_st : (s.terminate).st = .done := rfl
@[simp] theorem State.terminate_win : (s.terminate).win = s.win := rfl
@[simp] theorem State.terminate_k : (s.terminate).k = s.k := rfl
@[simp] theorem State.terminate_len : (s.terminate).len = s.len := rfl
@[simp] theorem State.terminate_addr : (s.terminate).addr = s.addr := rfl
@[simp] theorem State.terminate_j : (s.terminate).j = s.j := rfl
@[simp] theorem State.terminate_acc : (s.terminate).acc = s.acc := rfl
@[simp] theorem State.terminate_crc : (s.terminate).crc = s.crc := rfl
@[simp] theorem State.terminate_wrAddr : (s.terminate).wrAddr = s.wrAddr := rfl
@[simp] theorem State.terminate_wrData : (s.terminate).wrData = s.wrData := rfl
@[simp] theorem State.terminate_entry : (s.terminate).entry = s.addr := rfl
@[simp] theorem State.terminate_done : (s.terminate).done = true := rfl
@[simp] theorem State.terminate_faults : (s.terminate).faults = s.faults := rfl
@[simp] theorem State.terminate_mem : (s.terminate).mem = s.mem := rfl
@[simp] theorem State.terminate_rx : (s.terminate).rx = s.rx := rfl
@[simp] theorem State.terminate_out : (s.terminate).out = s.out := rfl
@[simp] theorem State.terminate_inputs : (s.terminate).inputs = s.inputs := rfl

@[simp] theorem State.record_cfg (f : Fault) : (s.record f).cfg = s.cfg := by
  unfold State.record; split <;> simp_all
@[simp] theorem State.record_st (f : Fault) : (s.record f).st = s.st := by
  unfold State.record; split <;> simp_all
@[simp] theorem State.record_win (f : Fault) : (s.record f).win = s.win := by
  unfold State.record; split <;> simp_all
@[simp] theorem State.record_k (f : Fault) : (s.record f).k = s.k := by
  unfold State.record; split <;> simp_all
@[simp] theorem State.record_len (f : Fault) : (s.record f).len = s.len := by
  unfold State.record; split <;> simp_all
@[simp] theorem State.record_addr (f : Fault) : (s.record f).addr = s.addr := by
  unfold State.record; split <;> simp_all
@[simp] theorem State.record_j (f : Fault) : (s.record f).j = s.j := by
  unfold State.record; split <;> simp_all
@[simp] theorem State.record_acc (f : Fault) : (s.record f).acc = s.acc := by
  unfold State.record; split <;> simp_all
@[simp] theorem State.record_crc (f : Fault) : (s.record f).crc = s.crc := by
  unfold State.record; split <;> simp_all
@[simp] theorem State.record_wrAddr (f : Fault) : (s.record f).wrAddr = s.wrAddr := by
  unfold State.record; split <;> simp_all
@[simp] theorem State.record_wrData (f : Fault) : (s.record f).wrData = s.wrData := by
  unfold State.record; split <;> simp_all
@[simp] theorem State.record_entry (f : Fault) : (s.record f).entry = s.entry := by
  unfold State.record; split <;> simp_all
@[simp] theorem State.record_done (f : Fault) : (s.record f).done = s.done := by
  unfold State.record; split <;> simp_all
@[simp] theorem State.record_mem (f : Fault) : (s.record f).mem = s.mem := by
  unfold State.record; split <;> simp_all
@[simp] theorem State.record_rx (f : Fault) : (s.record f).rx = s.rx := by
  unfold State.record; split <;> simp_all
@[simp] theorem State.record_out (f : Fault) : (s.record f).out = s.out := by
  unfold State.record; split <;> simp_all
@[simp] theorem State.record_inputs (f : Fault) : (s.record f).inputs = s.inputs := by
  unfold State.record; split <;> simp_all

@[simp] theorem State.noteFault_cfg : (s.noteFault).cfg = s.cfg := by
  unfold State.noteFault; split <;> [skip; split] <;> simp
@[simp] theorem State.noteFault_st : (s.noteFault).st = s.st := by
  unfold State.noteFault; split <;> [skip; split] <;> simp
@[simp] theorem State.noteFault_win : (s.noteFault).win = s.win := by
  unfold State.noteFault; split <;> [skip; split] <;> simp
@[simp] theorem State.noteFault_k : (s.noteFault).k = s.k := by
  unfold State.noteFault; split <;> [skip; split] <;> simp
@[simp] theorem State.noteFault_len : (s.noteFault).len = s.len := by
  unfold State.noteFault; split <;> [skip; split] <;> simp
@[simp] theorem State.noteFault_addr : (s.noteFault).addr = s.addr := by
  unfold State.noteFault; split <;> [skip; split] <;> simp
@[simp] theorem State.noteFault_j : (s.noteFault).j = s.j := by
  unfold State.noteFault; split <;> [skip; split] <;> simp
@[simp] theorem State.noteFault_acc : (s.noteFault).acc = s.acc := by
  unfold State.noteFault; split <;> [skip; split] <;> simp
@[simp] theorem State.noteFault_crc : (s.noteFault).crc = s.crc := by
  unfold State.noteFault; split <;> [skip; split] <;> simp
@[simp] theorem State.noteFault_wrAddr : (s.noteFault).wrAddr = s.wrAddr := by
  unfold State.noteFault; split <;> [skip; split] <;> simp
@[simp] theorem State.noteFault_wrData : (s.noteFault).wrData = s.wrData := by
  unfold State.noteFault; split <;> [skip; split] <;> simp
@[simp] theorem State.noteFault_entry : (s.noteFault).entry = s.entry := by
  unfold State.noteFault; split <;> [skip; split] <;> simp
@[simp] theorem State.noteFault_done : (s.noteFault).done = s.done := by
  unfold State.noteFault; split <;> [skip; split] <;> simp
@[simp] theorem State.noteFault_mem : (s.noteFault).mem = s.mem := by
  unfold State.noteFault; split <;> [skip; split] <;> simp
@[simp] theorem State.noteFault_rx : (s.noteFault).rx = s.rx := by
  unfold State.noteFault; split <;> [skip; split] <;> simp
@[simp] theorem State.noteFault_out : (s.noteFault).out = s.out := by
  unfold State.noteFault; split <;> [skip; split] <;> simp
@[simp] theorem State.noteFault_inputs : (s.noteFault).inputs = s.inputs := by
  unfold State.noteFault; split <;> [skip; split] <;> simp

@[simp] theorem State.hdrDone_cfg : (s.hdrDone).cfg = s.cfg := by
  unfold State.hdrDone; split <;> simp_all
@[simp] theorem State.hdrDone_st : (s.hdrDone).st = if s.len = 0 then .ack else .pay := by
  unfold State.hdrDone; split <;> simp_all
@[simp] theorem State.hdrDone_win : (s.hdrDone).win = s.win := by
  unfold State.hdrDone; split <;> simp_all
@[simp] theorem State.hdrDone_k : (s.hdrDone).k = 0 := by
  unfold State.hdrDone; split <;> simp_all
@[simp] theorem State.hdrDone_len : (s.hdrDone).len = s.len := by
  unfold State.hdrDone; split <;> simp_all
@[simp] theorem State.hdrDone_addr : (s.hdrDone).addr = s.addr := by
  unfold State.hdrDone; split <;> simp_all
@[simp] theorem State.hdrDone_crc : (s.hdrDone).crc = s.crc := by
  unfold State.hdrDone; split <;> simp_all
@[simp] theorem State.hdrDone_wrAddr : (s.hdrDone).wrAddr = s.wrAddr := by
  unfold State.hdrDone; split <;> simp_all
@[simp] theorem State.hdrDone_wrData : (s.hdrDone).wrData = s.wrData := by
  unfold State.hdrDone; split <;> simp_all
@[simp] theorem State.hdrDone_entry : (s.hdrDone).entry = s.entry := by
  unfold State.hdrDone; split <;> simp_all
@[simp] theorem State.hdrDone_done : (s.hdrDone).done = s.done := by
  unfold State.hdrDone; split <;> simp_all
@[simp] theorem State.hdrDone_faults : (s.hdrDone).faults = s.faults := by
  unfold State.hdrDone; split <;> simp_all
@[simp] theorem State.hdrDone_mem : (s.hdrDone).mem = s.mem := by
  unfold State.hdrDone; split <;> simp_all
@[simp] theorem State.hdrDone_rx : (s.hdrDone).rx = s.rx := by
  unfold State.hdrDone; split <;> simp_all
@[simp] theorem State.hdrDone_out : (s.hdrDone).out = s.out := by
  unfold State.hdrDone; split <;> simp_all
@[simp] theorem State.hdrDone_inputs : (s.hdrDone).inputs = s.inputs := by
  unfold State.hdrDone; split <;> simp_all

@[simp] theorem State.ackDone_cfg : (s.ackDone).cfg = s.cfg := by
  unfold State.ackDone; split <;> simp_all
@[simp] theorem State.ackDone_st : (s.ackDone).st = if s.len = 0 then .done else .chain := by
  unfold State.ackDone; split <;> simp_all
@[simp] theorem State.ackDone_len : (s.ackDone).len = s.len := by
  unfold State.ackDone; split <;> simp_all
@[simp] theorem State.ackDone_addr : (s.ackDone).addr = s.addr := by
  unfold State.ackDone; split <;> simp_all
@[simp] theorem State.ackDone_j : (s.ackDone).j = s.j := by
  unfold State.ackDone; split <;> simp_all
@[simp] theorem State.ackDone_acc : (s.ackDone).acc = s.acc := by
  unfold State.ackDone; split <;> simp_all
@[simp] theorem State.ackDone_crc : (s.ackDone).crc = s.crc := by
  unfold State.ackDone; split <;> simp_all
@[simp] theorem State.ackDone_wrAddr : (s.ackDone).wrAddr = s.wrAddr := by
  unfold State.ackDone; split <;> simp_all
@[simp] theorem State.ackDone_wrData : (s.ackDone).wrData = s.wrData := by
  unfold State.ackDone; split <;> simp_all
@[simp] theorem State.ackDone_entry : (s.ackDone).entry = if s.len = 0 then s.addr else s.entry := by
  unfold State.ackDone; split <;> simp_all
@[simp] theorem State.ackDone_faults : (s.ackDone).faults = s.faults := by
  unfold State.ackDone; split <;> simp_all
@[simp] theorem State.ackDone_mem : (s.ackDone).mem = s.mem := by
  unfold State.ackDone; split <;> simp_all
@[simp] theorem State.ackDone_rx : (s.ackDone).rx = s.rx := by
  unfold State.ackDone; split <;> simp_all
@[simp] theorem State.ackDone_out : (s.ackDone).out = s.out := by
  unfold State.ackDone; split <;> simp_all
@[simp] theorem State.ackDone_inputs : (s.ackDone).inputs = s.inputs := by
  unfold State.ackDone; split <;> simp_all

end Sys2Proof.Machine
end

