-- ==== Sys2Proof/Laws/Memory.lean ====
section
/-! SUPPORT. The laws of memory: read after write, and that every memory operation keeps the canonical form and the
bound of the address space. -/

namespace Sys2Proof.Machine

theorem Memory.wfFrom_mono {lo lo' : Nat} {m : Memory} (h : Memory.wfFrom lo m = true) (hle : lo' ≤ lo) :
    Memory.wfFrom lo' m = true := by
  cases m with
  | nil => rfl
  | cons c rest =>
    obtain ⟨a, b⟩ := c
    simp only [Memory.wfFrom, Bool.and_eq_true, decide_eq_true_eq] at h ⊢
    exact ⟨hle.trans h.1, h.2⟩

theorem Memory.set_wfFrom {lo a : Nat} {b : Byte} {m : Memory} (h : Memory.wfFrom lo m = true) (ha : lo ≤ a) :
    Memory.wfFrom lo (Memory.set m a b) = true := by
  induction m generalizing lo with
  | nil => simp [Memory.set, Memory.wfFrom, ha]
  | cons c rest ih =>
    obtain ⟨a', b'⟩ := c
    simp only [Memory.wfFrom, Bool.and_eq_true, decide_eq_true_eq] at h
    unfold Memory.set
    split
    · next hlt => simp [Memory.wfFrom, ha, h.2, Nat.succ_le_of_lt hlt]
    · split
      · next heq => subst heq; simp [Memory.wfFrom, ha, h.2]
      · have : a' + 1 ≤ a := by omega
        simp [Memory.wfFrom, h.1, ih h.2 this]

/-- Writing a byte keeps the canonical form. -/
theorem Memory.set_wf {a : Nat} {b : Byte} {m : Memory} (h : Memory.wf m = true) :
    Memory.wf (Memory.set m a b) = true :=
  Memory.set_wfFrom h (Nat.zero_le _)

/-- A write lists no address but those listed before and its own. -/
theorem Memory.mem_set {a : Nat} {b : Byte} {m : Memory} {cell : Host.Cell} (h : cell ∈ Memory.set m a b) :
    cell = (a, b) ∨ cell ∈ m := by
  induction m with
  | nil => simpa [Memory.set] using h
  | cons c rest ih =>
    obtain ⟨a', b'⟩ := c
    unfold Memory.set at h
    split at h
    · simpa using h
    · split at h
      · simp only [List.mem_cons] at h ⊢; tauto
      · simp only [List.mem_cons] at h ⊢
        rcases h with h | h
        · exact .inr (.inl h)
        · rcases ih h with h | h
          · exact .inl h
          · exact .inr (.inr h)

/-- A byte reads as it was written. -/
@[simp] theorem Memory.read_set_self (m : Memory) (a : Nat) (b : Byte) :
    Memory.read (Memory.set m a b) a = some b := by
  induction m with
  | nil => simp [Memory.set, Memory.read]
  | cons c rest ih =>
    obtain ⟨a', b'⟩ := c
    unfold Memory.set
    split
    · simp [Memory.read]
    · split
      · simp [Memory.read]
      · next hne => simp [Memory.read, hne, ih]

theorem Memory.read_none_of_lt {lo a : Nat} {m : Memory} (h : Memory.wfFrom lo m = true) (ha : a < lo) :
    Memory.read m a = none := by
  induction m generalizing lo with
  | nil => rfl
  | cons c rest ih =>
    obtain ⟨a', b'⟩ := c
    simp only [Memory.wfFrom, Bool.and_eq_true, decide_eq_true_eq] at h
    have : a ≠ a' := by omega
    simp [Memory.read, this, ih h.2 (by omega : a < a' + 1)]

/-- Every other byte reads as before. -/
theorem Memory.read_set_ne {m : Memory} {a x : Nat} {b : Byte} (hx : x ≠ a) :
    Memory.read (Memory.set m a b) x = Memory.read m x := by
  induction m with
  | nil => simp [Memory.set, Memory.read, hx]
  | cons c rest ih =>
    obtain ⟨a', b'⟩ := c
    unfold Memory.set
    split
    · simp [Memory.read, hx]
    · split
      · next heq => subst heq; simp [Memory.read, hx]
      · simp only [Memory.read]; split <;> [rfl; exact ih]

theorem memWriteBytes_wf {c : Cfg} {a v : Word} {n : Nat} {m : Memory} (h : Memory.wf m = true) :
    Memory.wf (memWriteBytes c a v n m) = true := by
  induction n with
  | zero => exact h
  | succ n ih => exact Memory.set_wf ih

/-- `MemWrite` keeps the canonical form. -/
theorem memWrite_wf {c : Cfg} {a v : Word} {m : Memory} (h : Memory.wf m = true) :
    Memory.wf (memWrite c a v m) = true :=
  memWriteBytes_wf h

theorem byteAddr_lt (c : Cfg) (a : Word) (i : Nat) : byteAddr c a i < 2 ^ c.bits :=
  Nat.mod_lt _ (Nat.two_pow_pos _)

theorem Memory.set_bound {N a : Nat} {b : Byte} {m : Memory} (h : ∀ cell ∈ m, cell.1 < N) (ha : a < N) :
    ∀ cell ∈ Memory.set m a b, cell.1 < N := by
  intro cell hc
  rcases Memory.mem_set hc with rfl | hc
  · exact ha
  · exact h cell hc

theorem memWrite_bound {c : Cfg} {a v : Word} {m : Memory} (h : ∀ cell ∈ m, cell.1 < 2 ^ c.bits) :
    ∀ cell ∈ memWrite c a v m, cell.1 < 2 ^ c.bits := by
  suffices ∀ n, ∀ cell ∈ memWriteBytes c a v n m, cell.1 < 2 ^ c.bits from this c.W
  intro n
  induction n with
  | zero => exact h
  | succ n ih => exact Memory.set_bound ih (byteAddr_lt c a n)

/-- The memory after reset is in canonical form. -/
theorem reset_mem_wf (c : Cfg) : Memory.wf (State.resetWith c).mem = true := rfl

end Sys2Proof.Machine
end

