-- ==== Sys2Proof/Laws/Operands.lean ====
section
/-! SUPPORT. The small laws of the pure operand functions and of the codes of the selector. -/

namespace Sys2Proof

@[simp] theorem Fsm.ofCode_code (st : Fsm) : Fsm.ofCode st.code = st := by cases st <;> rfl

@[simp] theorem Event.ofCode_code (ev : Event) : Event.ofCode ev.code = ev := by cases ev <;> rfl

@[simp] theorem CrcOp.ofCode_code (op : CrcOp) : CrcOp.ofCode op.code = op := by cases op <;> rfl

theorem Cfg.W_pos (c : Cfg) : 0 < c.W := by
  unfold Cfg.W; split <;> decide

theorem Cfg.W_cases (c : Cfg) : c.W = 4 ∨ c.W = 8 := by
  unfold Cfg.W; split <;> simp

theorem Cfg.bits_le (c : Cfg) : c.bits ≤ 64 := by
  rcases c.W_cases with h | h <;> simp [Cfg.bits, h]

/-- What a selector word decodes to depends only on the state and event it was made from. -/
@[simp] theorem selector_st (st : Fsm) (ev : Event) : Fsm.ofCode ((selector st ev).extractLsb' 2 3) = st := by
  cases st <;> cases ev <;> rfl

@[simp] theorem selector_ev (st : Fsm) (ev : Event) : Event.ofCode ((selector st ev).extractLsb' 0 2) = ev := by
  cases st <;> cases ev <;> rfl

/-- Taking the first `n` bytes of a list that starts with `n` bytes. -/
theorem takeBytes_append {n : Nat} {xs : List Byte} (ys : List Byte) (h : xs.length = n) :
    takeBytes n (xs ++ ys) = .ok (xs, ys) := by
  subst h; simp [takeBytes]

end Sys2Proof

namespace Sys2Proof.Machine

theorem fit_toNat (c : Cfg) (v : Word) : (fit c v).toNat = v.toNat % 2 ^ c.bits := by
  have h : v.toNat % 2 ^ c.bits < 2 ^ 64 := lt_of_le_of_lt (Nat.mod_le _ _) v.isLt
  rw [fit, BitVec.toNat_ofNat, Nat.mod_eq_of_lt h]

/-- A truncated value fits the target word. -/
theorem fit_fits (c : Cfg) (v : Word) : Fits c (fit c v) := by
  unfold Fits
  rw [fit_toNat]; exact Nat.mod_lt _ (Nat.two_pow_pos _)

/-- A value that fits is not changed by truncation. -/
theorem fit_of_fits {c : Cfg} {v : Word} (h : Fits c v) : fit c v = v := by
  apply BitVec.eq_of_toNat_eq; rw [fit_toNat, Nat.mod_eq_of_lt h]

@[simp] theorem wire_length {w : Nat} (e : Endian) (n : Nat) (v : BitVec w) : (wire e n v).length = n := by
  simp [wire]

theorem crcBytes_append (s : Word32) (xs ys : List Byte) : crcBytes s (xs ++ ys) = crcBytes (crcBytes s xs) ys := by
  simp [crcBytes]

theorem crcBytes_concat (s : Word32) (xs : List Byte) (b : Byte) : crcBytes s (xs ++ [b]) = crc8 (crcBytes s xs) b := by
  simp [crcBytes]

/-- The two constants of R131. -/
theorem crcMagic_le : crcMagic .le = 0xD9F3C4C1 := by decide +kernel

theorem crcMagic_be : crcMagic .be = 0x0748E422 := by decide +kernel

end Sys2Proof.Machine
end

