-- ==== Sys2Proof/Laws/Ops.lean ====
section
/-! SUPPORT. For each shared operation, once, everything it can do. -/

namespace Sys2Proof.Machine

/-- A meaning answers a next state exactly in the FSM state its selector names, and then the rule's effect. -/
theorem inState_eq_next {st : Fsm} {s t u : State} : inState st s t = .next u ↔ s.st = st ∧ u = t := by
  unfold inState; split <;> simp_all [eq_comm]

@[simp] theorem inState_of_eq {st : Fsm} {s t : State} (h : s.st = st) : inState st s t = .next t := by
  simp [inState, h]

/-- Recording a fault changes nothing but the record, which only grows. -/
theorem record_eq (s : State) (f : Fault) :
    s.record f = { s with faults := if f ∈ s.faults then s.faults else s.faults ++ [f] } := by
  unfold State.record; split <;> rfl

/-- The three cases of taking a model fault (R221, R222). -/
theorem noteFault_cases (s : State) :
    (s.st = .reserved ∧ s.noteFault = s.record .illegalState) ∨
    (s.st = .wr ∧ neverAccepted s = true ∧ s.noteFault = s.record (.misalignedWrite s.wrAddr)) ∨
    (s.st ≠ .reserved ∧ neverAccepted s = false ∧ s.noteFault = s) := by
  unfold State.noteFault
  by_cases h : s.st = .reserved
  · simp [h]
  · cases hn : neverAccepted s
    · simp [h]
    · have : s.st = .wr := by
        simp only [neverAccepted, Bool.and_eq_true, beq_iff_eq] at hn; exact hn.1.1
      simp [this]

/-- Outside `WR` and code 7 there is no model fault to record. -/
theorem noteFault_of_ne {s : State} (h7 : s.st ≠ .reserved) (hw : s.st ≠ .wr) : s.noteFault = s := by
  rcases noteFault_cases s with h | h | h
  · exact absurd h.1 h7
  · exact absurd h.1 hw
  · exact h.2.2

theorem neverAccepted_of_ne {s : State} (hw : s.st ≠ .wr) : neverAccepted s = false := by
  simp [neverAccepted, hw]

@[simp] theorem neverAccepted_noteFault (s : State) : neverAccepted s.noteFault = neverAccepted s := by
  simp [neverAccepted]

/-- Recorded faults stay recorded. -/
theorem noteFault_faults_mem {s : State} {f : Fault} (h : f ∈ s.faults) : f ∈ s.noteFault.faults := by
  rcases noteFault_cases s with c | c | c
  · rw [c.2, record_eq]; dsimp only; split <;> simp [h]
  · rw [c.2.2, record_eq]; dsimp only; split <;> simp [h]
  · rw [c.2.2]; exact h

/-- In a stuck state the fault is on record after any edge begins. -/
theorem noteFault_records {s : State} (h : neverAccepted s = true) :
    .misalignedWrite s.wrAddr ∈ s.noteFault.faults := by
  rcases noteFault_cases s with c | c | c
  · have : s.st = .wr := by
      simp only [neverAccepted, Bool.and_eq_true, beq_iff_eq] at h; exact h.1.1
    simp [this] at c
  · rw [c.2.2, record_eq]; dsimp only; split <;> simp_all
  · simp [h] at c

/-- A refused request leaves every register and all of memory as they are. -/
theorem wrRule_of_neverAccepted {s : State} (h : neverAccepted s = true) : wrRule s = s.noteFault := by
  simp [wrRule, h]

theorem wrRule_of_accepted {s : State} (h : neverAccepted s = false) :
    wrRule s = if s.j = s.len then { s.acceptWrite with k := 0, st := .ack } else { s.acceptWrite with st := .pay } := by
  simp [wrRule, h]

/-- Serving is a step rule of the state the block is in, or it changes nothing but the record of faults. -/
theorem serve_cases (s : State) :
    (∃ b r, s.rx = b :: r ∧
      ((s.st = .seek ∧ serve s = seekRule b s.dropRx) ∨ (s.st = .hdr ∧ serve s = hdrRule b s.dropRx) ∨
       (s.st = .pay ∧ serve s = payRule b s.dropRx) ∨ (s.st = .chain ∧ serve s = chainRule b s.dropRx))) ∨
    (s.st = .wr ∧ neverAccepted s = false ∧ serve s = wrRule s) ∨ (s.st = .ack ∧ serve s = ackRule s) ∨
    serve s = s.noteFault := by
  cases hst : s.st
  case wr =>
    cases hn : neverAccepted s
    · exact .inr (.inl ⟨rfl, rfl, by simp [serve, hst]⟩)
    · exact .inr (.inr (.inr (by simp [serve, hst, wrRule, hn])))
  case ack => exact .inr (.inr (.inl ⟨rfl, by simp [serve, hst]⟩))
  case done => exact .inr (.inr (.inr (by rw [noteFault_of_ne (by simp [hst]) (by simp [hst])]; simp [serve, hst])))
  case reserved => exact .inr (.inr (.inr (by simp [serve, hst])))
  all_goals
    cases hrx : s.rx with
    | nil =>
      refine .inr (.inr (.inr ?_))
      rw [noteFault_of_ne (by simp [hst]) (by simp [hst])]; simp [serve, hst, serveRx, hrx]
    | cons b r => exact .inl ⟨b, r, rfl, by simp [serve, hst, serveRx, hrx]⟩

theorem serveN_add (m n : Nat) (s : State) : serveN (m + n) s = serveN n (serveN m s) := by
  induction m generalizing s with
  | zero => simp [serveN]
  | succ m ih => rw [Nat.succ_add]; exact ih (serve s)

/-- What every serving step keeps, any number of them keep. -/
theorem serveN_induct {P : State → Prop} (hs : ∀ s, P s → P (serve s)) (n : Nat) (s : State) (h : P s) :
    P (serveN n s) := by
  induction n generalizing s with
  | zero => exact h
  | succ n ih => exact ih _ (hs s h)

end Sys2Proof.Machine
end

