-- ==== Sys2Proof/Laws/PerInstr.lean ====
section
/-! SUPPORT. Statements for all instructions, one lemma per constructor. The family `EncodedLength`: how many bytes an
instruction's word has in its format (30_encoding.md R94 for a frame). -/

namespace Sys2Proof.Laws.EncodedLength

open Sys2Proof Sys2Proof.Machine

/-- The bytes of an instruction on a block with `W`-byte words. -/
def size (c : Cfg) (i : Instr) : Nat :=
  match i with
  | .pktData _ _ payload => 4 + 2 * c.W + payload.length
  | .pktEntry _ => 4 + 2 * c.W
  | .seekRx _ => 2
  | .hdrRx _ => 2
  | .payRx _ => 2
  | .wrMem => 1
  | .ackTx => 1
  | .chainRx _ => 2
  | .doneRestart => 1
  | .crcHold => 2
  | .crcInit => 2
  | .crcLoadm => 2
  | .crcUpd _ => 2

/-- The encoder gives that many bytes, whatever the parameters. -/
def Statement (i : Instr) : Prop := ∀ c, (encode c i).length = size c i

theorem pktData (len addr : Word) (payload : List Byte) : Statement (.pktData len addr payload) := by
  intro c; simp [encode, frameBytes, size]; omega

theorem pktEntry (addr : Word) : Statement (.pktEntry addr) := by
  intro c; simp [encode, frameBytes, size]; omega

theorem seekRx (b : Byte) : Statement (.seekRx b) := fun _ => rfl
theorem hdrRx (b : Byte) : Statement (.hdrRx b) := fun _ => rfl
theorem payRx (b : Byte) : Statement (.payRx b) := fun _ => rfl
theorem wrMem : Statement .wrMem := fun _ => rfl
theorem ackTx : Statement .ackTx := fun _ => rfl
theorem chainRx (b : Byte) : Statement (.chainRx b) := fun _ => rfl
theorem doneRestart : Statement .doneRestart := fun _ => rfl
theorem crcHold : Statement .crcHold := fun _ => rfl
theorem crcInit : Statement .crcInit := fun _ => rfl
theorem crcLoadm : Statement .crcLoadm := fun _ => rfl
theorem crcUpd (din : Byte) : Statement (.crcUpd din) := fun _ => rfl

end Sys2Proof.Laws.EncodedLength
end

