-- ==== Sys2Proof/Laws/Step.lean ====
section
/-! SUPPORT. What a clock edge can do, and what a step can do, said once. -/

namespace Sys2Proof.Machine

/-- The outcome of what has been fetched: `step` by its definition. -/
def Fetched.outcome (f : Fetched) : Host.Outcome State Fault Refusal :=
  match f with
  | .run i t => exec i t
  | .settle t => .next t

theorem step_eq (s : State) : step s = (fetch s).outcome := rfl

/-- Every selector decodes to its step rule, or names why it is none (R98). -/
theorem decodeStep_selector (st : Fsm) (ev : Event) (b : Byte) :
    decodeStep (selector st ev) b =
      match st, ev with
      | .reserved, _ => .error .illegalState
      | .seek, .rx => .ok (.seekRx b)
      | .hdr, .rx => .ok (.hdrRx b)
      | .pay, .rx => .ok (.payRx b)
      | .wr, .mem => .ok .wrMem
      | .ack, .tx => .ok .ackTx
      | .chain, .rx => .ok (.chainRx b)
      | .done, .restart => .ok .doneRestart
      | st, .restart => .error (.restartHint st)
      | st, ev => .error (.cannotOccur st ev) := by
  cases st <;> cases ev <;> rfl

theorem noteFault_out_ports (p : Ports) (s : State) : event p s.noteFault = event p s := by
  simp [event, rxDone, txDone, memDone, rxReady, offered, txValid, memValid]

theorem offered_eq_some {p : Ports} {s : State} (h : (offered p s).isSome = true) :
    ∃ b r, s.rx = b :: r ∧ offered p s = some b := by
  unfold offered at h ⊢
  cases hv : p.rxValid
  · simp [hv] at h
  · cases hrx : s.rx with
    | nil => simp [hv, hrx] at h
    | cons b r => exact ⟨b, r, rfl, by simp⟩

/-- The far side of a reset edge: a byte lost, a byte given, a write performed, or nothing (R251). -/
theorem farSide_cases (p : Ports) (s : State) :
    farSide p s = s.dropRx ∨ farSide p s = s.giveTx (txData s) ∨
    (neverAccepted s = false ∧ farSide p s = s.acceptWrite) ∨ farSide p s = s := by
  unfold farSide
  split
  · exact .inl rfl
  · split
    · exact .inr (.inl rfl)
    · split
      · next h => exact .inr (.inr (.inl ⟨by simp [memDone] at h; exact h.2, rfl⟩))
      · exact .inr (.inr (.inr rfl))

/-- Everything a clock edge can do: reset, a step rule whose handshake completes, a restart, or nothing but the record
of a fault. -/
theorem edge_cases (p : Ports) (s : State) :
    (p.rst = true ∧ (fetchEdge p s).outcome = .next (resetEdge p s.noteFault)) ∨
    (p.rst = false ∧
      ((∃ b r, s.rx = b :: r ∧ p.rxValid = true ∧
        ((s.st = .seek ∧ (fetchEdge p s).outcome = .next (seekRule b s.dropRx)) ∨
         (s.st = .hdr ∧ (fetchEdge p s).outcome = .next (hdrRule b s.dropRx)) ∨
         (s.st = .pay ∧ (fetchEdge p s).outcome = .next (payRule b s.dropRx)) ∨
         (s.st = .chain ∧ (fetchEdge p s).outcome = .next (chainRule b s.dropRx)))) ∨
       (s.st = .wr ∧ p.memReady = true ∧ neverAccepted s = false ∧ (fetchEdge p s).outcome = .next (wrRule s)) ∨
       (s.st = .ack ∧ p.txReady = true ∧ (fetchEdge p s).outcome = .next (ackRule s)) ∨
       (s.st = .done ∧ p.restart = true ∧ (fetchEdge p s).outcome = .next (restartRule s)) ∨
       (fetchEdge p s).outcome = .next s.noteFault)) := by
  cases hr : p.rst
  · refine .inr ⟨rfl, ?_⟩
    have hev := noteFault_out_ports p s
    unfold fetchEdge
    simp only [hr, hev, Bool.false_eq_true, if_false]
    cases hst : s.st
    case wr =>
      by_cases hm : p.memReady = true ∧ neverAccepted s = false
      · have he : event p s = some .mem := by
          simp [event, rxDone, rxReady, txDone, txValid, memDone, memValid, hst, hm]
        have hn : s.noteFault = s := by
          rcases noteFault_cases s with c | c | c
          · simp [hst] at c
          · simp [hm] at c
          · exact c.2.2
        refine .inr (.inl ⟨rfl, hm.1, hm.2, ?_⟩)
        simp [he, decodeStep_selector, Fetched.outcome, exec, execWrMem, hst, hn]
      · have he : event p s = some .restart ∨ event p s = none := by
          have : memDone p s = false := by
            simp only [memDone, Bool.and_eq_false_iff, Bool.not_eq_false']
            cases hx : p.memReady <;> cases hy : neverAccepted s <;> simp_all
          simp [event, rxDone, rxReady, txDone, txValid, hst, this]
        refine .inr (.inr (.inr (.inr ?_)))
        rcases he with he | he <;> simp [he, decodeStep_selector, Fetched.outcome]
    case ack =>
      have hn : s.noteFault = s := noteFault_of_ne (by simp [hst]) (by simp [hst])
      cases hm : p.txReady
      · have he : event p s = some .restart ∨ event p s = none := by
          simp [event, rxDone, rxReady, txDone, txValid, memDone, memValid, hst, hm]
        refine .inr (.inr (.inr (.inr ?_)))
        rcases he with he | he <;> simp [he, decodeStep_selector, Fetched.outcome]
      · have he : event p s = some .tx := by simp [event, rxDone, rxReady, txDone, txValid, hst, hm]
        refine .inr (.inr (.inl ⟨rfl, rfl, ?_⟩))
        simp [he, decodeStep_selector, Fetched.outcome, exec, execAckTx, hst, hn]
    case done =>
      have hn : s.noteFault = s := noteFault_of_ne (by simp [hst]) (by simp [hst])
      cases hm : p.restart
      · have he : event p s = none := by
          simp [event, rxDone, rxReady, txDone, txValid, memDone, memValid, hst, hm]
        exact .inr (.inr (.inr (.inr (by simp [he, Fetched.outcome]))))
      · have he : event p s = some .restart := by
          simp [event, rxDone, rxReady, txDone, txValid, memDone, memValid, hst, hm]
        refine .inr (.inr (.inr (.inl ⟨rfl, rfl, ?_⟩)))
        simp [he, decodeStep_selector, Fetched.outcome, exec, execDoneRestart, hst, hn]
    case reserved =>
      have he : event p s = some .restart ∨ event p s = none := by
        simp [event, rxDone, rxReady, txDone, txValid, memDone, memValid, hst]
      refine .inr (.inr (.inr (.inr ?_)))
      rcases he with he | he <;> simp [he, decodeStep_selector, Fetched.outcome]
    all_goals
      have hn : s.noteFault = s := noteFault_of_ne (by simp [hst]) (by simp [hst])
      cases ho : (offered p s).isSome
      · have he : event p s = some .restart ∨ event p s = none := by
          simp [event, rxDone, rxReady, txDone, txValid, memDone, memValid, hst, ho]
        refine .inr (.inr (.inr (.inr ?_)))
        rcases he with he | he <;> simp [he, decodeStep_selector, Fetched.outcome]
      · obtain ⟨b, r, hrx, hb⟩ := offered_eq_some ho
        have hv : p.rxValid = true := by
          cases hv : p.rxValid
          · simp [offered, hv] at ho
          · rfl
        have he : event p s = some .rx := by simp [event, rxDone, rxReady, hst, ho]
        refine .inl ⟨b, r, hrx, hv, ?_⟩
        simp [he, hb, decodeStep_selector, Fetched.outcome, exec, execSeekRx, execHdrRx, execPayRx, execChainRx, hst, hn]
  · exact .inl ⟨rfl, by simp [fetchEdge, hr, Fetched.outcome]⟩

/-- Everything a step can do: a clock edge, one operation of the CRC sub-unit, a stream of bytes served to its end, or
another agent's write. -/
theorem step_cases (s : State) :
    (∃ p t, t.cfg = s.cfg ∧ t = { s with inputs := t.inputs } ∧ step s = (fetchEdge p t).outcome) ∨
    (∃ op d r, s.inputs = .crcOp op d :: r ∧ step s = .next ({ s with inputs := r }.driveCrc op d)) ∨
    (∃ bs r, s.inputs = .stream bs :: r ∧ ∃ n bs', step s = .next (serveN n { s with rx := bs', inputs := r })) ∨
    (∃ a b r, s.inputs = .otherWrite a b :: r ∧ step s = .next (otherWrite a b { s with inputs := r })) := by
  cases hi : s.inputs with
  | nil => exact .inl ⟨idlePorts, s, rfl, rfl, by simp [step_eq, fetch, hi]⟩
  | cons x r =>
    cases x with
    | edge p => exact .inl ⟨p, { s with inputs := r }, rfl, rfl, by simp [step_eq, fetch, hi]⟩
    | crcOp op d =>
      refine .inr (.inl ⟨op, d, r, rfl, ?_⟩)
      cases op <;>
        simp [step_eq, fetch, hi, decodeCrcOp, Fetched.outcome, exec, execCrcHold, execCrcInit, execCrcLoadm,
          execCrcUpd, State.driveCrc, crcUnit]
    | stream bs =>
      refine .inr (.inr (.inl ⟨bs, r, rfl, ?_⟩))
      rw [step_eq]; unfold fetch; rw [hi]; dsimp only
      have key : ∀ i, decode .frame s.cfg bs = .ok (i, []) → ∃ n bs', exec i { s with inputs := r } =
          .next (serveN n { s with rx := bs', inputs := r }) := by
        intro i h
        have : (∃ l a p, i = .pktData l a p) ∨ ∃ a, i = .pktEntry a := by
          simp only [decode, decodeFrame, bind, Except.bind] at h
          split at h
          · simp at h
          · split at h
            · simp only [pure, Except.pure, Except.ok.injEq, Prod.mk.injEq] at h
              exact .inr ⟨_, h.1.symm⟩
            · split at h
              · simp at h
              · simp only [pure, Except.pure, Except.ok.injEq, Prod.mk.injEq] at h
                exact .inl ⟨_, _, _, h.1.symm⟩
        rcases this with ⟨l, a, p, rfl⟩ | ⟨a, rfl⟩
        · exact ⟨_, _, rfl⟩
        · exact ⟨_, _, rfl⟩
      split
      · next i h => exact key i h
      · exact ⟨_, _, rfl⟩
    | otherWrite a b => exact .inr (.inr (.inr ⟨a, b, r, rfl, by simp [step_eq, fetch, hi, Fetched.outcome]⟩))

end Sys2Proof.Machine
end

