-- ==== Sys2Proof/Tests/Slice0.lean ====
section
/-! SUPPORT. The model's own tests. Expected results are the spec's: the vectors of 95_test_vectors.md (named by their
ids), the examples of the rules, and words written out bit by bit from 30_encoding.md. Then, for each statement with
hypotheses, a concrete case that meets them. -/

set_option Elab.async false

namespace Sys2Proof.Tests

open Sys2Proof Sys2Proof.Machine

def le4 : Cfg := ⟨.w4, .le, .fault⟩
def be4 : Cfg := ⟨.w4, .be, .fault⟩
def le8 : Cfg := ⟨.w8, .le, .fault⟩
def be8 : Cfg := ⟨.w8, .be, .fault⟩
def le4split : Cfg := ⟨.w4, .le, .split⟩

/-- The next state of an outcome, if it is one. -/
def nextOf (o : Host.Outcome State Fault Refusal) : Option State :=
  match o with
  | .next t => some t
  | _ => none

/-- A block with the parameters `c` in the FSM state `st`, otherwise as after reset. -/
def at' (c : Cfg) (st : Fsm) : State := { State.resetWith c with st := st }

/-- The outputs after a stream of bytes sent to a block just reset, every hold lifted. -/
def served (c : Cfg) (bytes : List Byte) : State := sendBytes bytes (State.resetWith c)

/-! ### Well-formedness: an ill-formed term for each check, refused -/

theorem test_wf_accepts : WellFormed le4 (.pktData 2 0x1000 [1, 2]) = true := by decide
theorem test_wf_refuses_zero_length : WellFormed le4 (.pktData 0 0x1000 []) = false := by decide
theorem test_wf_refuses_short_payload : WellFormed le4 (.pktData 3 0x1000 [1, 2]) = false := by decide
theorem test_wf_refuses_wide_length :
    WellFormed le4 (.pktData 0x100000001 0 (List.replicate 1 0)) = false := by decide
theorem test_wf_refuses_wide_address : WellFormed le4 (.pktData 1 0x100000000 [1]) = false := by decide
theorem test_wf_refuses_wide_entry : WellFormed le4 (.pktEntry 0x100000000) = false := by decide
theorem test_wf_w8_accepts_wide_entry : WellFormed le8 (.pktEntry 0x100000000) = true := by decide

/-! ### Decoding: words written out from 30_encoding.md, every constructor -/

/-- P1's first packet (95_test_vectors.md L1-3, W=4 LE). -/
theorem test_decode_data_le4 :
    decode .frame le4 [0xAA, 0x55, 0xAA, 0x55, 0x08, 0, 0, 0, 0x00, 0x10, 0, 0, 1, 2, 3, 4, 5, 6, 7, 8] =
      .ok (.pktData 8 0x1000 [1, 2, 3, 4, 5, 6, 7, 8], []) := by decide +kernel

/-- L1-3, W=4 BE. -/
theorem test_decode_data_be4 :
    decode .frame be4 [0x55, 0xAA, 0x55, 0xAA, 0, 0, 0, 0x08, 0, 0, 0x10, 0x00, 1, 2, 3, 4, 5, 6, 7, 8] =
      .ok (.pktData 8 0x1000 [1, 2, 3, 4, 5, 6, 7, 8], []) := by decide +kernel

/-- V-HDR-3, W=8 BE. -/
theorem test_decode_entry_be8 :
    decode .frame be8 [0x55, 0xAA, 0x55, 0xAA, 0, 0, 0, 0, 0, 0, 0, 0, 0x01, 0x23, 0x45, 0x67, 0x89, 0xAB, 0xCD, 0xEF] =
      .ok (.pktEntry 0x0123456789ABCDEF, []) := by decide +kernel

theorem test_decode_seekRx : decode .step le4 [0b00000000, 0xAA] = .ok (.seekRx 0xAA, []) := by decide +kernel
theorem test_decode_hdrRx : decode .step le4 [0b00000100, 0x08] = .ok (.hdrRx 0x08, []) := by decide +kernel
theorem test_decode_payRx : decode .step le4 [0b00001000, 0x04] = .ok (.payRx 0x04, []) := by decide +kernel
theorem test_decode_wrMem : decode .step le4 [0b00001110] = .ok (.wrMem, []) := by decide +kernel
theorem test_decode_ackTx : decode .step le4 [0b00010001] = .ok (.ackTx, []) := by decide +kernel
theorem test_decode_chainRx : decode .step le4 [0b00010100, 0x55] = .ok (.chainRx 0x55, []) := by decide +kernel
theorem test_decode_doneRestart : decode .step le4 [0b00011011] = .ok (.doneRestart, []) := by decide +kernel
theorem test_decode_crcHold : decode .crcop le4 [0b00, 0] = .ok (.crcHold, []) := by decide +kernel
theorem test_decode_crcInit : decode .crcop le4 [0b01, 0] = .ok (.crcInit, []) := by decide +kernel
theorem test_decode_crcLoadm : decode .crcop le4 [0b10, 0] = .ok (.crcLoadm, []) := by decide +kernel
theorem test_decode_crcUpd : decode .crcop le4 [0b11, 0x61] = .ok (.crcUpd 0x61, []) := by decide +kernel

theorem test_decode_rejects_no_magic :
    decode .frame be4 [0xAA, 0x55, 0xAA, 0x55, 0, 0, 0, 0, 0, 0, 0, 0] = .error .noMagic := by decide +kernel
theorem test_decode_rejects_truncated :
    decode .frame le4 [0xAA, 0x55, 0xAA, 0x55, 2, 0, 0, 0, 0, 0, 0, 0, 1] = .error .truncated := by decide +kernel
theorem test_decode_rejects_tx_in_seek : decode .step le4 [0b00000001] = .error (.cannotOccur .seek .tx) := by
  decide +kernel
theorem test_decode_rejects_hint : decode .step le4 [0b00000111] = .error (.restartHint .hdr) := by decide +kernel
theorem test_decode_rejects_state7 : decode .step le4 [0b00011100, 0] = .error .illegalState := by decide +kernel
theorem test_decode_rejects_wide_selector : decode .step le4 [0b00100000, 0] = .error .reservedBits := by decide +kernel

/-- The table's words (spec/opcode_table.json `match`). -/
theorem test_table_words :
    [0x00, 0x04, 0x08, 0x0E, 0x11, 0x14, 0x1B, 0x1, 0x2, 0x3].map (decodeTableWord 8) =
      [some (.seekRx 0), some (.hdrRx 0), some (.payRx 0), some .wrMem, some .ackTx, some (.chainRx 0),
        some .doneRestart, some .crcInit, some .crcLoadm, some (.crcUpd 0)] := by decide +kernel

theorem test_table_entry : decodeTableWord 96 0xAA55AA550000000000100000 = some (.pktEntry 0x1000) := by decide +kernel

/-- A table word placed for the next step is the instruction that runs: here `WR.MEM`, which writes a word at 0. -/
theorem test_withFetchWord_runs :
    (nextOf (step (State.reset.withFetchWord 8 0x0E))).map (·.out) = some [.write 0 0] := by decide +kernel

/-! ### CRC (95_test_vectors.md 2.1) -/

/-- V-CRC-1. -/
theorem test_crc_check_value :
    crcBytes crcInit [0x31, 0x32, 0x33, 0x34, 0x35, 0x36, 0x37, 0x38, 0x39] = 0x340BC6D9 := by decide +kernel

/-- V-CRC-2 and V-CRC-3. -/
theorem test_crc8_vectors :
    [crc8 0xFFFFFFFF 0x00, crc8 0xFFFFFFFF 0x80, crc8 0 0x01, crc8 0 0x80, crc8 0 0xFF, crc8 0x12345678 0x78] =
      [0x2DFD1072, 0xC0459352, 0x77073096, 0xEDB88320, 0x2D02EF8D, 0x00123456] := by decide +kernel

/-- V-CRC-5, V-CRC-6. -/
theorem test_crc_loadm :
    [le4, be4].map (fun c => (nextOf (exec .crcLoadm (State.resetWith c))).map (·.crc)) =
      [some 0xD9F3C4C1, some 0x0748E422] := by decide +kernel

theorem test_crc_hold_init_upd :
    [Instr.crcHold, .crcInit, .crcUpd 0x01].map
      (fun i => (nextOf (exec i { State.reset with crc := 0x12345678 })).map (·.crc)) =
      [some 0x12345678, some 0xFFFFFFFF, some (crc8 0x12345678 0x01)] := by decide +kernel

/-! ### Step rules: the rules' own examples and the single-step vectors -/

/-- R150's example; V-SEEK-2 with the window shifted the wrong way. -/
theorem test_seek_match_le :
    (nextOf (exec (.seekRx 0x55) { State.reset with win := 0xAA55AA00 })).map (fun t => (t.st, t.crc)) =
      some (.hdr, 0xD9F3C4C1) := by decide +kernel
theorem test_seek_wrong_shift :
    (nextOf (exec (.seekRx 0x55) { State.reset with win := 0x55AA5500 })).map (fun t => (t.st, t.win)) =
      some (.seek, 0x5555AA55) := by decide +kernel

/-- V-HDR-1, LE and BE. -/
theorem test_hdr_first_byte :
    [le4, be4].map (fun c => (nextOf (exec (.hdrRx 0x08) (at' c .hdr))).map (fun t => (t.len, t.k))) =
      [some (0x00000008, 1), some (0x08000000, 1)] := by decide +kernel

/-- V-HDR-4: `len = 0` goes from `HDR` to `ACK`. -/
theorem test_hdr_last_byte :
    (nextOf (exec (.hdrRx 0x80) { at' le4 .hdr with k := 7 })).map (fun t => (t.st, t.addr)) =
      some (.ack, 0x80000000) := by decide +kernel

/-- V-PAY-8. -/
theorem test_pay_full_word :
    (nextOf (exec (.payRx 0x04) { at' le4 .pay with addr := 0x1000, len := 8, j := 3, acc := 0x00030201 })).map
      (fun t => (t.st, t.wrAddr, t.wrData, t.acc, t.j)) = some (.wr, 0x1000, 0x04030201, 0, 4) := by decide +kernel

/-- V-PAY-5, BE, W=8, the flush at the third byte. -/
theorem test_pay_flush :
    (nextOf (exec (.payRx 0x03) { at' be8 .pay with addr := 0x100, len := 3, j := 2, acc := 0x0102000000000000 })).map
      (fun t => (t.st, t.wrAddr, t.wrData)) = some (.wr, 0x100, 0x0102030000000000) := by decide +kernel

/-- R183's example. -/
theorem test_wr_last_write :
    (nextOf (exec .wrMem { at' le4 .wr with wrAddr := 0x1004, wrData := 0x08070605, j := 8, len := 8 })).map
      (fun t => (t.st, t.mem)) = some (.ack, [(0x1004, 5), (0x1005, 6), (0x1006, 7), (0x1007, 8)]) := by decide +kernel

/-- V-PAY-7 under `fault`. -/
theorem test_wr_misaligned_fault :
    (nextOf (exec .wrMem { at' le4 .wr with wrAddr := 0x1001, wrData := 0x04030201, j := 4, len := 4 })).map
      (fun t => (t.st, t.mem, t.faults)) = some (.wr, [], [.misalignedWrite 0x1001]) := by decide +kernel

/-- V-ACK-1. -/
theorem test_ack_bytes :
    [0, 1, 2, 3].map (fun k => (nextOf (exec .ackTx { at' be4 .ack with crc := 0x6EEE09E0, k := k, len := 8 })).map (·.out)) =
      [some [.tx 0x1F], some [.tx 0xF6], some [.tx 0x11], some [.tx 0x91]] := by decide +kernel

/-- R154's example: four chain bytes that are not the magic. -/
theorem test_chain_fails :
    (nextOf (execAll [.chainRx 0xAA, .chainRx 0x55, .chainRx 0xAA, .chainRx 0xAA] (at' le4 .chain))).map
      (fun t => (t.st, t.win, t.k)) = some (.seek, 0, 0) := by decide +kernel

/-- R204's example. -/
theorem test_restart :
    (nextOf (exec .doneRestart { at' le4 .done with done := true, entry := 0x80000000 })).map
      (fun t => (t.st, t.done, t.entry)) = some (.seek, false, 0x80000000) := by decide +kernel

/-! ### Packets -/

/-- V-PAY-2. -/
theorem test_packet_partial_be :
    (nextOf (exec (.pktData 5 0x2000 [0x11, 0x22, 0x33, 0x44, 0x55]) (State.resetWith be4))).map (·.out) =
      some [.write 0x2000 0x11223344, .write 0x2004 0x55000000, .tx 0xE9, .tx 0x85, .tx 0x0F, .tx 0x3E] := by
  decide +kernel

/-- V-PAY-6. -/
theorem test_packet_wraps :
    (nextOf (exec (.pktData 8 0xFFFFFFFC [0xA0, 0xA1, 0xA2, 0xA3, 0xA4, 0xA5, 0xA6, 0xA7]) (State.resetWith le4))).map
      (·.out) =
      some [.write 0xFFFFFFFC 0xA3A2A1A0, .write 0 0xA7A6A5A4, .tx 0x10, .tx 0xD8, .tx 0x2C, .tx 0x13] := by
  decide +kernel

/-- V-HDR-3, LE. -/
theorem test_packet_entry_le8 :
    (nextOf (exec (.pktEntry 0x0123456789ABCDEF) (State.resetWith le8))).map (fun t => (t.st, t.entry, t.crc, t.out)) =
      some (.done, 0x0123456789ABCDEF, 0xC8FA38E6, [.tx 0x19, .tx 0xC7, .tx 0x05, .tx 0x37]) := by decide +kernel

/-- V-CHAIN-3: the discard. -/
theorem test_stream_discards_chain_bytes :
    let t := served le4 [0xAA, 0x55, 0xAA, 0x55, 4, 0, 0, 0, 0x10, 0, 0, 0, 9, 8, 7, 6, 0xAA, 0x55, 0xAA,
      0xAA, 0x55, 0xAA, 0x55, 0, 0, 0, 0, 0x10, 0, 0, 0]
    (t.st, t.done, t.win, t.k, t.crc) = (.seek, false, 0x00000010, 0, 0x332A2CE1) := by decide +kernel

/-- V-SEEK-4: false sync. -/
theorem test_stream_false_sync :
    let t := served le4 [0x00, 0xAA, 0x55, 0xAA, 0x55, 0xAA, 0x55, 0, 0, 0, 0, 0x34, 0x12, 0, 0]
    (t.st, t.crc, t.len, t.addr, t.j, t.acc) = (.pay, 0xDBBDE42D, 0x55AA, 0x12340000, 2, 0) := by decide +kernel

/-! ### Edges -/

/-- V-RST-2: a write performed at the reset edge. -/
theorem test_reset_edge_performs_write :
    (nextOf (step { at' le4 .wr with wrData := 7, inputs := [.edge { readyPorts with rst := true }] })).map
      (fun t => (t.st, t.mem)) = some (.seek, [(0, 7), (1, 0), (2, 0), (3, 0)]) := by decide +kernel

/-- V-DONE-2: the restart hint. -/
theorem test_restart_hint :
    (nextOf (step { State.reset with inputs := [.edge { idlePorts with restart := true }] })) = some State.reset := by
  decide +kernel

/-- V-DONE-3: no byte is taken in `DONE`. -/
theorem test_done_takes_no_byte :
    (nextOf (step { at' le4 .done with done := true, rx := [1], inputs := [.edge readyPorts] })).map (·.rx) =
      some [1] := by decide +kernel

/-! ### Each statement with hypotheses has a case that meets them -/

theorem witness_OneWrongByteChangesChecksum : (0x30 : Byte) ≠ 0x31 := by decide

theorem witness_SeekRxShiftsOrEntersHeader_match :
    ∃ (s : State) (b : Byte), s.st = .seek ∧ shiftIn s.cfg.endian s.win b = 0x55AA55AA :=
  ⟨{ State.reset with win := 0xAA55AA00 }, 0x55, by decide⟩
theorem witness_SeekRxShiftsOrEntersHeader_no_match :
    ∃ (s : State) (b : Byte), s.st = .seek ∧ shiftIn s.cfg.endian s.win b ≠ 0x55AA55AA :=
  ⟨State.reset, 0x55, by decide⟩

/-- The empty window, three magic bytes none of whose prefixes ends in a magic, and the byte that completes it. -/
theorem witness_SeekLeavesAtFirstMagic :
    State.reset.st = .seek ∧ State.reset.win = 0 ∧
    (∀ pre, pre <+: ([0xAA, 0x55, 0xAA] : List Byte) → ¬ wire .le 4 magic <:+ pre) ∧
    wire .le 4 magic <:+ ([0xAA, 0x55, 0xAA] : List Byte) ++ [0x55] := by
  refine ⟨rfl, rfl, fun pre h hm => ?_, by decide⟩
  have h1 := hm.length_le
  have h2 := h.length_le
  simp at h1 h2
  omega

theorem witness_HdrRxAssemblesField_positions :
    ∃ s : State, s.st = .hdr ∧ s.k.toNat ≠ 2 * s.cfg.W - 1 ∧ s.k.toNat = s.cfg.W := ⟨{ at' le4 .hdr with k := 4 }, by decide⟩
theorem witness_HdrRxAssemblesField_entry :
    ∃ s : State, s.st = .hdr ∧ s.k.toNat = 2 * s.cfg.W - 1 ∧ s.len = 0 := ⟨{ at' le8 .hdr with k := 15 }, by decide⟩
theorem witness_HdrRxAssemblesField_data :
    ∃ s : State, s.st = .hdr ∧ s.k.toNat = 2 * s.cfg.W - 1 ∧ s.len ≠ 0 :=
  ⟨{ at' le4 .hdr with k := 7, len := 1 }, by decide⟩

theorem witness_HeaderBytesGiveLengthAndAddress :
    ∃ (s : State) (l a : List Byte), s.st = .hdr ∧ s.k = 0 ∧ s.len = 0 ∧ s.addr = 0 ∧ l.length = s.cfg.W ∧
      a.length = s.cfg.W := ⟨at' be4 .hdr, [0, 0, 0, 8], [0, 0, 0x10, 0], by decide⟩

theorem witness_ChainRxJudgesAtFourthByte_early : ∃ s : State, s.st = .chain ∧ s.k.toNat < 3 :=
  ⟨{ at' le4 .chain with k := 2 }, by decide⟩
theorem witness_ChainRxJudgesAtFourthByte_match :
    ∃ (s : State) (b : Byte), s.st = .chain ∧ ¬ s.k.toNat < 3 ∧ shiftIn s.cfg.endian s.win b = 0x55AA55AA :=
  ⟨{ at' be4 .chain with k := 3, win := 0x0055AA55 }, 0xAA, by decide⟩
theorem witness_ChainRxJudgesAtFourthByte_no_match :
    ∃ (s : State) (b : Byte), s.st = .chain ∧ ¬ s.k.toNat < 3 ∧ shiftIn s.cfg.endian s.win b ≠ 0x55AA55AA :=
  ⟨{ at' be4 .chain with k := 3 }, 0xAA, by decide⟩

theorem witness_PayRxAssemblesAndIssuesWrites_full :
    ∃ s : State, s.st = .pay ∧ s.j.toNat % s.cfg.W = s.cfg.W - 1 ∧ fit s.cfg (s.j + 1) = s.len :=
  ⟨{ at' le4 .pay with j := 3, len := 4 }, by decide⟩
theorem witness_PayRxAssemblesAndIssuesWrites_flush :
    ∃ s : State, s.st = .pay ∧ s.j.toNat % s.cfg.W ≠ s.cfg.W - 1 ∧ fit s.cfg (s.j + 1) = s.len :=
  ⟨{ at' le4 .pay with j := 0, len := 1 }, by decide⟩
theorem witness_PayRxAssemblesAndIssuesWrites_gather :
    ∃ s : State, s.st = .pay ∧ s.j.toNat % s.cfg.W ≠ s.cfg.W - 1 ∧ fit s.cfg (s.j + 1) ≠ s.len :=
  ⟨{ at' be8 .pay with j := 6, len := 8 }, by decide⟩

theorem witness_WrMemPerformsPendingWrite_last :
    ∃ s : State, s.st = .wr ∧ (s.wrAddr.toNat % s.cfg.W = 0 ∨ s.cfg.misaligned = .split) ∧ s.j = s.len :=
  ⟨{ at' le4 .wr with j := 4, len := 4 }, by decide⟩
theorem witness_WrMemPerformsPendingWrite_more :
    ∃ s : State, s.st = .wr ∧ (s.wrAddr.toNat % s.cfg.W = 0 ∨ s.cfg.misaligned = .split) ∧ s.j ≠ s.len :=
  ⟨{ at' le4split .wr with wrAddr := 0x1001, j := 4, len := 5 }, by decide⟩
theorem witness_WrMemStoresExactlyTheWord_top :
    ∃ s : State, s.st = .wr ∧ s.cfg.misaligned = .split ∧ byteAddr s.cfg s.wrAddr 3 = 2 :=
  ⟨{ at' le4split .wr with wrAddr := 0xFFFFFFFF }, by decide⟩

theorem witness_WrMemStoresExactlyTheWord_aligned : ∃ s : State, s.st = .wr ∧ s.wrAddr.toNat % s.cfg.W = 0 :=
  ⟨{ at' be8 .wr with wrAddr := 0xFFFFFFFFFFFFFFF8 }, by decide⟩
theorem witness_WrMemStoresExactlyTheWord_refused :
    ∃ s : State, s.st = .wr ∧ s.wrAddr.toNat % s.cfg.W ≠ 0 ∧ s.cfg.misaligned = .fault :=
  ⟨{ at' be8 .wr with wrAddr := 0xFFFFFFFFFFFFFFF9 }, by decide⟩
/-- The last aligned word of the address space, which does not wrap. -/
theorem witness_MemWritePlacesLanes_aligned : Fits be4 0xFFFFFFFC ∧ (0xFFFFFFFC : Word).toNat % be4.W = 0 := by decide

theorem witness_MisalignedWriteIsRecordedAndSticks_no_input :
    ∃ s : State, s.st = .wr ∧ s.cfg.misaligned = .fault ∧ s.wrAddr.toNat % s.cfg.W ≠ 0 ∧ s.inputs = [] :=
  ⟨{ at' le4 .wr with wrAddr := 0x1003 }, by decide⟩
theorem witness_MisalignedWriteIsRecordedAndSticks :
    ∃ (s : State) (p : Ports) (rest : List Input), s.st = .wr ∧ s.cfg.misaligned = .fault ∧
      s.wrAddr.toNat % s.cfg.W ≠ 0 ∧ s.inputs = .edge p :: rest ∧ p.rst = false :=
  ⟨{ at' le4 .wr with wrAddr := 0x1001, inputs := [.edge readyPorts] }, readyPorts, [], by decide⟩
theorem witness_MisalignedWriteIsRecordedAndSticks_reset :
    ∃ (s : State) (p : Ports) (rest : List Input), s.st = .wr ∧ s.cfg.misaligned = .fault ∧
      s.wrAddr.toNat % s.cfg.W ≠ 0 ∧ s.inputs = .edge p :: rest ∧ p.rst = true :=
  ⟨{ at' be8 .wr with wrAddr := 4, inputs := [.edge { readyPorts with rst := true }] },
    { readyPorts with rst := true }, [], by decide⟩

theorem witness_ReservedStateRecordsIllegalState_no_input : ∃ s : State, s.st = .reserved ∧ s.inputs = [] :=
  ⟨at' le4 .reserved, by decide⟩
theorem witness_ReservedStateRecordsIllegalState :
    ∃ (s : State) (p : Ports) (rest : List Input), s.st = .reserved ∧ s.inputs = .edge p :: rest ∧ p.rst = false :=
  ⟨{ at' le4 .reserved with inputs := [.edge readyPorts] }, readyPorts, [], by decide⟩

theorem witness_AckTxGivesByteAndEndsPacket_byte : ∃ s : State, s.st = .ack ∧ s.k.toNat < 3 :=
  ⟨{ at' le4 .ack with k := 2 }, by decide⟩
theorem witness_AckTxGivesByteAndEndsPacket_data : ∃ s : State, s.st = .ack ∧ ¬ s.k.toNat < 3 ∧ s.len ≠ 0 :=
  ⟨{ at' le4 .ack with k := 3, len := 1 }, by decide⟩
theorem witness_AckTxGivesByteAndEndsPacket_entry : ∃ s : State, s.st = .ack ∧ ¬ s.k.toNat < 3 ∧ s.len = 0 :=
  ⟨{ at' le4 .ack with k := 3 }, by decide⟩
theorem witness_AckIsComplementLowByteFirst : ∃ s : State, s.st = .ack ∧ s.k = 0 := ⟨at' be4 .ack, by decide⟩

theorem witness_DoneRestartStartsSeek : ∃ s : State, s.st = .done := ⟨{ at' le4 .done with done := true }, rfl⟩
theorem witness_RestartOutsideDoneIsIgnored : ∃ s : State, s.st ≠ .done := ⟨at' le4 .hdr, by decide⟩

theorem witness_DataPacketIsLoadedAndAcknowledged_seek :
    WellFormed le4 (.pktData 5 0x2000 [1, 2, 3, 4, 5]) = true ∧ AtPacketStart (State.resetWith le4) ∧
    (0x2000 : Word).toNat % le4.W = 0 := by
  refine ⟨by decide, ⟨.inl ⟨rfl, rfl⟩, rfl⟩, by decide⟩
theorem witness_DataPacketIsLoadedAndAcknowledged_split_chain :
    WellFormed le4split (.pktData 1 0xFFFFFFFF [1]) = true ∧ AtPacketStart (at' le4split .chain) ∧
    le4split.misaligned = .split := by
  refine ⟨by decide, ⟨.inr ⟨rfl, rfl⟩, rfl⟩, rfl⟩
theorem witness_EntryPacketHandsOutAddress :
    WellFormed be8 (.pktEntry 0xFFFFFFFFFFFFFFFF) = true ∧ AtPacketStart (at' be8 .chain) :=
  ⟨by decide, .inr ⟨rfl, rfl⟩, rfl⟩
theorem witness_MisalignedDataPacketIsNeverAcknowledged :
    WellFormed le4 (.pktData 5 0x1001 [1, 2, 3, 4, 5]) = true ∧ AtPacketStart (State.resetWith le4) ∧
    (0x1001 : Word).toNat % le4.W ≠ 0 ∧ le4.misaligned = .fault :=
  ⟨by decide, ⟨.inl ⟨rfl, rfl⟩, rfl⟩, by decide, rfl⟩
theorem witness_PacketAfterDoneStaysWithTransport : ∃ s : State, s.st = .done := ⟨at' be4 .done, rfl⟩
theorem witness_PacketIsRunOfReadyEdges : (Instr.pktData 1 0 [9]).fmt = .frame := rfl

theorem witness_StepRunsTheSelectedInstruction :
    ∃ (s : State) (p : Ports) (rest : List Input) (i : Instr) (r : List Byte),
      s.inputs = .edge p :: rest ∧ p.rst = false ∧ event p s = some .rx ∧
      decode .step s.cfg (stepByte s.st .rx :: s.rx) = .ok (i, r) :=
  ⟨{ at' le4 .hdr with rx := [8], inputs := [.edge readyPorts] }, readyPorts, [], .hdrRx 8, [], by decide⟩
theorem witness_EdgeRunsTheStatesInstruction_rx :
    ∃ (s : State) (p : Ports) (rest : List Input) (b : Byte) (r : List Byte), s.inputs = .edge p :: rest ∧
      p.rst = false ∧ s.rx = b :: r ∧ p.rxValid = true ∧ s.st = .pay :=
  ⟨{ at' le4 .pay with rx := [8], inputs := [.edge readyPorts] }, readyPorts, [], 8, [], by decide⟩
theorem witness_EdgeRunsTheStatesInstruction_wr :
    ∃ (s : State) (p : Ports) (rest : List Input), s.inputs = .edge p :: rest ∧ p.rst = false ∧ s.st = .wr ∧
      p.memReady = true ∧ (s.wrAddr.toNat % s.cfg.W = 0 ∨ s.cfg.misaligned = .split) :=
  ⟨{ at' le4 .wr with inputs := [.edge readyPorts] }, readyPorts, [], by decide⟩
theorem witness_EdgeRunsTheStatesInstruction_ack :
    ∃ (s : State) (p : Ports) (rest : List Input), s.inputs = .edge p :: rest ∧ p.rst = false ∧ s.st = .ack ∧
      p.txReady = true := ⟨{ at' le4 .ack with inputs := [.edge readyPorts] }, readyPorts, [], by decide⟩
theorem witness_EdgeRunsTheStatesInstruction_done :
    ∃ (s : State) (p : Ports) (rest : List Input), s.inputs = .edge p :: rest ∧ p.rst = false ∧ s.st = .done ∧
      p.restart = true :=
  ⟨{ at' le4 .done with inputs := [.edge { idlePorts with restart := true }] }, { idlePorts with restart := true }, [],
    by decide⟩
theorem witness_StepRunsCrcOpsAndPackets_crc :
    ∃ (s : State) (op : CrcOp) (din : Byte) (rest : List Input), s.inputs = .crcOp op din :: rest :=
  ⟨{ State.reset with inputs := [.crcOp .upd 1] }, .upd, 1, [], rfl⟩
theorem witness_StepRunsCrcOpsAndPackets_packet :
    ∃ (s : State) (i : Instr) (rest : List Input), i.fmt = .frame ∧ WellFormed s.cfg i = true ∧
      s.inputs = .stream (encode s.cfg i) :: rest :=
  ⟨{ State.reset with inputs := [.stream (encode Cfg.default (.pktEntry 0x40))] }, .pktEntry 0x40, [], rfl, by decide, rfl⟩

/-- Half a packet after a byte of noise: a stream that is no packet. -/
theorem witness_StepRunsCrcOpsAndPackets_noise :
    ∃ (s : State) (bytes : List Byte) (rest : List Input), s.inputs = .stream bytes :: rest ∧
      decode .frame s.cfg bytes = .error .noMagic :=
  ⟨{ State.reset with inputs := [.stream [0x13, 0xAA, 0x55, 0xAA, 0x55, 2]] }, [0x13, 0xAA, 0x55, 0xAA, 0x55, 2], [],
    by decide +kernel⟩

theorem witness_ResetEdgeClearsRegisters :
    ∃ (s : State) (p : Ports) (rest : List Input), s.inputs = .edge p :: rest ∧ p.rst = true :=
  ⟨{ at' le4 .wr with inputs := [.edge { readyPorts with rst := true }] }, { readyPorts with rst := true }, [], rfl, rfl⟩

theorem witness_HoldKeepsEveryRegister_no_input :
    ∃ s : State, s.st ≠ .reserved ∧ (s.st = .wr → s.wrAddr.toNat % s.cfg.W = 0 ∨ s.cfg.misaligned = .split) ∧
      s.inputs = [] := ⟨{ at' le4split .wr with wrAddr := 1 }, by decide⟩
/-- In `WR` with `memReady` off and `restart` on, all premises of the hold statement meet. -/
theorem witness_HoldKeepsEveryRegister :
    ∃ (s : State) (p : Ports) (rest : List Input), s.inputs = .edge p :: rest ∧ p.rst = false ∧ s.st ≠ .reserved ∧
      (s.st = .wr → s.wrAddr.toNat % s.cfg.W = 0 ∨ s.cfg.misaligned = .split) ∧
      (s.st = .seek ∨ s.st = .hdr ∨ s.st = .pay ∨ s.st = .chain → p.rxValid = false ∨ s.rx = []) ∧
      (s.st = .wr → p.memReady = false) ∧ (s.st = .ack → p.txReady = false) ∧ (s.st = .done → p.restart = false) :=
  ⟨{ at' le4 .wr with inputs := [.edge { idlePorts with restart := true }] }, { idlePorts with restart := true }, [],
    by decide⟩

theorem witness_OffersAreHeldUntilTaken_tx :
    ∃ (s t : State) (p : Ports) (rest : List Input), s.inputs = .edge p :: rest ∧ p.rst = false ∧ step s = .next t ∧
      txValid s = true ∧ p.txReady = false :=
  ⟨{ at' le4 .ack with inputs := [.edge idlePorts] }, at' le4 .ack, idlePorts, [], rfl, rfl, rfl, rfl, rfl⟩
theorem witness_OffersAreHeldUntilTaken_mem :
    ∃ (s t : State) (p : Ports) (rest : List Input), s.inputs = .edge p :: rest ∧ p.rst = false ∧ step s = .next t ∧
      memValid s = true ∧ p.memReady = false :=
  ⟨{ at' le4 .wr with inputs := [.edge idlePorts] }, at' le4 .wr, idlePorts, [], rfl, rfl, rfl, rfl, rfl⟩

/-- A write pending in the middle of a packet: a state that meets every clause of the invariants, and its next state. -/
def midPacket : State := { at' le4 .wr with len := 8, j := 4, addr := 0x1000, wrAddr := 0x1000, wrData := 1 }

theorem witness_EveryStepKeepsTheInvariants : Inv midPacket ∧ ∃ t, step midPacket = .next t := by
  refine ⟨⟨by decide, by decide, by decide, by decide, fun h => absurd h (by decide), by decide, by decide, by decide,
    ⟨by decide, by decide, by decide, by decide, by decide, by decide, by decide⟩, ⟨rfl, fun c h => ?_⟩⟩, midPacket, rfl⟩
  exact absurd h (List.not_mem_nil)

theorem witness_EveryReachableStateMeetsTheInvariants :
    ∃ t, Host.Core.run Sys2Proof.core 1 { State.resetWith be8 with rx := [0x55], inputs := [.edge readyPorts] } = .next t :=
  ⟨_, rfl⟩

/-- One edge of each kind the frame rules over edges speak of. -/
theorem witness_OnlyTheNamedWritersChangeCrc :
    ∃ (s t : State) (p : Ports) (rest : List Input), s.inputs = .edge p :: rest ∧ step s = .next t ∧ t.crc ≠ s.crc :=
  ⟨{ at' le4 .hdr with rx := [1], inputs := [.edge readyPorts] }, { at' le4 .hdr with crc := 0x5AFA20E4, len := 1, k := 1 },
    readyPorts, [], by decide, rfl, by decide⟩
theorem witness_DoneRisesOnlyAfterEntryPacket :
    ∃ (s t : State) (p : Ports) (rest : List Input), s.inputs = .edge p :: rest ∧ step s = .next t ∧ s.done = false ∧
      t.done = true :=
  ⟨{ at' le4 .ack with k := 3, inputs := [.edge readyPorts] },
    { at' le4 .done with k := 3, done := true, out := [.tx 0] }, readyPorts, [], rfl, rfl, rfl, rfl⟩
theorem witness_DoneRisesOnlyAfterEntryPacket_falls :
    ∃ (s t : State) (p : Ports) (rest : List Input), s.inputs = .edge p :: rest ∧ step s = .next t ∧ s.done = true ∧
      t.done = false :=
  ⟨{ at' le4 .done with done := true, inputs := [.edge { idlePorts with restart := true }] }, at' le4 .seek,
    { idlePorts with restart := true }, [], rfl, rfl, rfl, rfl⟩
theorem witness_MemoryChangesOnlyByAcceptedWrite :
    ∃ (s t : State) (p : Ports) (rest : List Input), s.inputs = .edge p :: rest ∧ step s = .next t ∧ t.mem ≠ s.mem :=
  ⟨{ midPacket with inputs := [.edge readyPorts] },
    { midPacket with st := .pay, mem := [(0x1000, 1), (0x1001, 0), (0x1002, 0), (0x1003, 0)], out := [.write 0x1000 1] },
    readyPorts, [], rfl, rfl, by decide⟩
theorem witness_AcknowledgmentFollowsLastWrite :
    ∃ (s t : State) (p : Ports) (rest : List Input), s.inputs = .edge p :: rest ∧ p.rst = false ∧ step s = .next t ∧
      s.st ≠ .ack ∧ t.st = .ack :=
  ⟨{ at' le4 .hdr with k := 7, rx := [0], inputs := [.edge readyPorts] }, { at' le4 .ack with crc := 0x2DFD1072 },
    readyPorts, [], rfl, rfl, rfl, by decide, rfl⟩
theorem witness_OtherInstructionsLeaveMemory :
    ∃ (s t : State) (i : Instr), i.fmt ≠ .frame ∧ i ≠ .wrMem ∧ exec i s = .next t :=
  ⟨at' le4 .hdr, _, .hdrRx 1, by decide, by decide, rfl⟩
theorem witness_OtherAgentsWriteChangesOneByte :
    ∃ (s : State) (a : Word) (b : Byte) (rest : List Input), s.inputs = .otherWrite a b :: rest :=
  ⟨{ State.reset with inputs := [.otherWrite 0x10 7] }, 0x10, 7, [], rfl⟩
theorem witness_ParametersFaultsAndOutputsAreKept : ∃ s t : State, step s = .next t := ⟨midPacket, midPacket, rfl⟩

theorem witness_DecodeOfEncodeIsTheInstruction : WellFormed be4 (.pktData 2 0xFFFFFFFF [1, 2]) = true := by decide
theorem witness_DecodedFrameIsItsEncoding :
    decode .frame le4 [0xAA, 0x55, 0xAA, 0x55, 0, 0, 0, 0, 0x40, 0, 0, 0, 7] = .ok (.pktEntry 0x40, [7]) := by
  decide +kernel
theorem witness_WireAndAssemblyAreInverse : (8 : Nat) ≤ 8 ∧ (0xFFFFFFFFFFFFFFFF : Word).toNat < 2 ^ (8 * 8) := by decide

end Sys2Proof.Tests
end

section
/-! What every step keeps: the parameters, the record of model faults as a prefix, the outputs as a prefix. The relation
is a preorder, each step rule moves up in it, and so does whatever is composed of step rules. -/

namespace Sys2Proof.Machine

/-- `t` has the parameters of `s`, and neither its fault record nor its outputs take anything of those of `s` back
(R6, R221, R11). -/
structure KeepsHistory (s t : State) : Prop where
  cfg    : t.cfg = s.cfg
  faults : s.faults <+: t.faults
  out    : s.out <+: t.out

theorem KeepsHistory.refl (s : State) : KeepsHistory s s :=
  ⟨rfl, List.prefix_rfl, List.prefix_rfl⟩

theorem KeepsHistory.trans {s t u : State} (h : KeepsHistory s t) (h' : KeepsHistory t u) : KeepsHistory s u :=
  ⟨h'.cfg.trans h.cfg, h.faults.trans h'.faults, h.out.trans h'.out⟩

/-- An update that adds no fault and appends `os` to the outputs keeps the history. -/
theorem KeepsHistory.of_append {s t : State} (os : List Output) (hc : t.cfg = s.cfg) (hf : t.faults = s.faults)
    (ho : t.out = s.out ++ os) : KeepsHistory s t :=
  ⟨hc, hf ▸ List.prefix_rfl, ho ▸ List.prefix_append _ _⟩

theorem KeepsHistory.of_eq {s t : State} (hc : t.cfg = s.cfg) (hf : t.faults = s.faults) (ho : t.out = s.out) :
    KeepsHistory s t :=
  .of_append [] hc hf (by simpa using ho)

theorem record_keepsHistory (s : State) (f : Fault) : KeepsHistory s (s.record f) := by
  refine ⟨by simp, ?_, by simp⟩
  rw [record_eq]
  dsimp only
  split
  · exact List.prefix_rfl
  · exact List.prefix_append _ _

theorem noteFault_keepsHistory (s : State) : KeepsHistory s s.noteFault := by
  obtain ⟨-, h⟩ | ⟨-, -, h⟩ | ⟨-, -, h⟩ := noteFault_cases s <;> rw [h]
  · exact record_keepsHistory s _
  · exact record_keepsHistory s _
  · exact .refl s

theorem dropRx_keepsHistory (s : State) : KeepsHistory s s.dropRx := .of_eq rfl rfl rfl

theorem acceptWrite_keepsHistory (s : State) : KeepsHistory s s.acceptWrite := .of_append _ rfl rfl rfl

theorem giveTx_keepsHistory (s : State) (b : Byte) : KeepsHistory s (s.giveTx b) := .of_append _ rfl rfl rfl

/-! ### The step rules -/

theorem seekRule_keepsHistory (b : Byte) (s : State) : KeepsHistory s (seekRule b s) := by
  unfold seekRule
  dsimp only
  split <;> exact .of_eq rfl rfl rfl

theorem hdrField_keepsHistory (b : Byte) (s : State) : KeepsHistory s (hdrField b s) := by
  unfold hdrField
  split <;> exact .of_eq rfl rfl rfl

theorem hdrRule_keepsHistory (b : Byte) (s : State) : KeepsHistory s (hdrRule b s) := by
  have hcrc : KeepsHistory s (s.driveCrc .upd b) := .of_eq rfl rfl rfl
  have hfield := hcrc.trans (hdrField_keepsHistory b _)
  unfold hdrRule
  dsimp only
  split
  · exact hfield.trans (.of_eq (by simp) (by simp) (by simp))
  · exact hfield.trans (.of_eq rfl rfl rfl)

theorem payRule_keepsHistory (b : Byte) (s : State) : KeepsHistory s (payRule b s) := by
  unfold payRule
  dsimp only
  split
  · exact .of_eq rfl rfl rfl
  · split <;> exact .of_eq rfl rfl rfl

theorem wrRule_keepsHistory (s : State) : KeepsHistory s (wrRule s) := by
  cases hn : neverAccepted s
  case true => rw [wrRule_of_neverAccepted hn]; exact noteFault_keepsHistory s
  case false =>
    rw [wrRule_of_accepted hn]
    split <;> exact .of_append _ rfl rfl rfl

theorem ackRule_keepsHistory (s : State) : KeepsHistory s (ackRule s) := by
  have hgive := giveTx_keepsHistory s (txData s)
  unfold ackRule
  dsimp only
  split
  · exact hgive.trans (.of_eq rfl rfl rfl)
  · exact hgive.trans (.of_eq (by simp) (by simp) (by simp))

theorem chainRule_keepsHistory (b : Byte) (s : State) : KeepsHistory s (chainRule b s) := by
  unfold chainRule
  dsimp only
  split
  · exact .of_eq rfl rfl rfl
  · split <;> exact .of_eq rfl rfl rfl

theorem restartRule_keepsHistory (s : State) : KeepsHistory s (restartRule s) := .of_eq rfl rfl rfl

/-! ### Serving, clock edges, steps -/

theorem serve_keepsHistory (s : State) : KeepsHistory s (serve s) := by
  have hdrop := dropRx_keepsHistory s
  obtain ⟨b, r, -, ⟨-, h⟩ | ⟨-, h⟩ | ⟨-, h⟩ | ⟨-, h⟩⟩ | ⟨-, -, h⟩ | ⟨-, h⟩ | h := serve_cases s <;> rw [h]
  · exact hdrop.trans (seekRule_keepsHistory b _)
  · exact hdrop.trans (hdrRule_keepsHistory b _)
  · exact hdrop.trans (payRule_keepsHistory b _)
  · exact hdrop.trans (chainRule_keepsHistory b _)
  · exact wrRule_keepsHistory s
  · exact ackRule_keepsHistory s
  · exact noteFault_keepsHistory s

theorem serveN_keepsHistory (n : Nat) (s : State) : KeepsHistory s (serveN n s) :=
  serveN_induct (P := KeepsHistory s) (fun t h => h.trans (serve_keepsHistory t)) n s (.refl s)

theorem farSide_keepsHistory (p : Ports) (s : State) : KeepsHistory s (farSide p s) := by
  obtain h | h | ⟨-, h⟩ | h := farSide_cases p s <;> rw [h]
  · exact dropRx_keepsHistory s
  · exact giveTx_keepsHistory s _
  · exact acceptWrite_keepsHistory s
  · exact .refl s

theorem resetEdge_keepsHistory (p : Ports) (s : State) : KeepsHistory s (resetEdge p s) :=
  (farSide_keepsHistory p s).trans (.of_eq rfl rfl rfl)

/-- A clock edge answers a next state, and that state keeps the history. -/
theorem fetchEdge_keepsHistory (p : Ports) (s : State) :
    ∃ t, (fetchEdge p s).outcome = .next t ∧ KeepsHistory s t := by
  have hdrop := dropRx_keepsHistory s
  obtain ⟨-, h⟩ | ⟨-, ⟨b, r, -, -, ⟨-, h⟩ | ⟨-, h⟩ | ⟨-, h⟩ | ⟨-, h⟩⟩ | ⟨-, -, -, h⟩ | ⟨-, -, h⟩ | ⟨-, -, h⟩ | h⟩ :=
    edge_cases p s <;> refine ⟨_, h, ?_⟩
  · exact (noteFault_keepsHistory s).trans (resetEdge_keepsHistory p _)
  · exact hdrop.trans (seekRule_keepsHistory b _)
  · exact hdrop.trans (hdrRule_keepsHistory b _)
  · exact hdrop.trans (payRule_keepsHistory b _)
  · exact hdrop.trans (chainRule_keepsHistory b _)
  · exact wrRule_keepsHistory s
  · exact ackRule_keepsHistory s
  · exact restartRule_keepsHistory s
  · exact noteFault_keepsHistory s

/-- Every input answers a next state that keeps the history. -/
theorem step_keepsHistory (s : State) : ∃ t, step s = .next t ∧ KeepsHistory s t := by
  obtain ⟨p, u, -, hu, h⟩ | ⟨op, d, r, -, h⟩ | ⟨bs, r, -, n, bs', h⟩ | ⟨a, b, r, -, h⟩ := step_cases s
  · obtain ⟨t, ht, hk⟩ := fetchEdge_keepsHistory p u
    have hsu : KeepsHistory s u := by rw [hu]; exact .of_eq rfl rfl rfl
    exact ⟨t, h.trans ht, hsu.trans hk⟩
  · exact ⟨_, h, .of_eq rfl rfl rfl⟩
  · have hsent : KeepsHistory s { s with rx := bs', inputs := r } := .of_eq rfl rfl rfl
    exact ⟨_, h, hsent.trans (serveN_keepsHistory n _)⟩
  · exact ⟨_, h, .of_eq rfl rfl rfl⟩

/-- Settles O45: the next state is the one `step_keepsHistory` speaks of. -/
theorem parametersFaultsAndOutputsAreKept : Obligations.ParametersFaultsAndOutputsAreKept := by
  intro s t ht
  obtain ⟨u, hu, hk⟩ := step_keepsHistory s
  obtain rfl : u = t := by simpa [hu] using ht
  exact ⟨hk.cfg, hk.faults, hk.out⟩

end Sys2Proof.Machine
end

section
/-! The byte lanes of a field (R9, R12, R13). The `n` shifts `SH(p, n)` cut the low `8n` bits into `n` lanes of eight
bits that do not overlap; so a value below `2^(8n)` is its lanes, and an assembly holds each byte in its own lane. -/

namespace Sys2Proof.Machine

variable {e : Endian} {n : Nat}

/-- A lane of the field ends within the field. -/
theorem sh_add_eight_le {p : Nat} (hp : p < n) : sh e p n + 8 ≤ 8 * n := by
  cases e <;> simp only [sh] <;> omega

/-- The lanes of different positions do not overlap. -/
theorem sh_apart {p q : Nat} (hp : p < n) (hq : q < n) (hne : p ≠ q) :
    sh e p n + 8 ≤ sh e q n ∨ sh e q n + 8 ≤ sh e p n := by
  cases e <;> simp only [sh] <;> omega

/-- Every bit of the field lies in a lane. -/
theorem exists_sh_add {i : Nat} (e : Endian) (hi : i < 8 * n) : ∃ q < n, ∃ r < 8, i = sh e q n + r := by
  cases e with
  | le => exact ⟨i / 8, by omega, i % 8, by omega, by simp only [sh]; omega⟩
  | be => exact ⟨n - 1 - i / 8, by omega, i % 8, by omega, by simp only [sh]; omega⟩

theorem byteAt_getLsbD {w : Nat} (v : BitVec w) (s : Nat) {r : Nat} (hr : r < 8) :
    (byteAt v s).getLsbD r = v.getLsbD (s + r) := by
  simp [byteAt, hr]

@[simp] theorem byteAt_zero {w : Nat} (s : Nat) : byteAt 0#w s = 0#8 := by
  simp [byteAt]

@[simp] theorem byteAt_or {w : Nat} (x y : BitVec w) (s : Nat) : byteAt (x ||| y) s = byteAt x s ||| byteAt y s := by
  simp [byteAt, BitVec.ushiftRight_or_distrib, BitVec.setWidth_or]

/-- The bits of a byte placed at a shift. -/
theorem getLsbD_byte_shiftLeft (b : Byte) (s i : Nat) (hs : s + 8 ≤ 64) :
    (b.setWidth 64 <<< s).getLsbD i = (decide (s ≤ i) && b.getLsbD (i - s)) := by
  rw [BitVec.getLsbD_shiftLeft, BitVec.getLsbD_setWidth]
  by_cases hsi : s ≤ i
  · by_cases hi : i < 64
    · simp [hsi, hi, show i - s < 64 by omega]
    · simp [hi, BitVec.getLsbD_of_ge b (i - s) (by omega)]
  · simp [hsi, show i < s by omega]

/-- A byte placed in the lane of position `p` shows in that lane and in no other. -/
theorem byteAt_byte_shiftLeft_sh (hn : n ≤ 8) {p q : Nat} (hp : p < n) (hq : q < n) (b : Byte) :
    byteAt (b.setWidth 64 <<< sh e p n) (sh e q n) = if p = q then b else 0 := by
  have hin := sh_add_eight_le (e := e) hp
  apply BitVec.eq_of_getLsbD_eq
  intro r hr
  rw [byteAt_getLsbD _ _ hr, getLsbD_byte_shiftLeft _ _ _ (by omega)]
  split
  · next hpq => simp [hpq]
  · next hpq =>
    obtain hlt | hgt := sh_apart (e := e) hp hq hpq
    · simp [BitVec.getLsbD_of_ge b (sh e q n + r - sh e p n) (by omega)]
    · simp [show ¬ sh e p n ≤ sh e q n + r by omega]

/-- The lane of position `q` in an assembly from position `p` on: the byte given for `q`, zero where none is. -/
theorem byteAt_assemble (hn : n ≤ 8) {q : Nat} (hq : q < n) (bs : List Byte) (p : Nat) (hp : p + bs.length ≤ n) :
    byteAt (assemble e n p bs) (sh e q n) = if p ≤ q then bs.getD (q - p) 0 else 0 := by
  induction bs generalizing p with
  | nil => simp [assemble]
  | cons b rest ih =>
    rw [List.length_cons] at hp
    rw [assemble, byteAt_or, byteAt_byte_shiftLeft_sh hn (by omega) hq, ih (p + 1) (by omega)]
    obtain hlt | rfl | hgt := Nat.lt_trichotomy p q
    · obtain ⟨d, rfl⟩ := Nat.exists_eq_add_of_lt hlt
      simp [show p ≠ p + d + 1 by omega, show p ≤ p + d + 1 by omega, show p + d + 1 - p = d + 1 by omega,
        show p + d + 1 - (p + 1) = d by omega]
    · simp
    · simp [show ¬ p ≤ q by omega, show ¬ p + 1 ≤ q by omega, show p ≠ q by omega]

/-- An assembly is a value of the field's `8n` bits. -/
theorem assemble_toNat_lt (hn : n ≤ 8) (bs : List Byte) (p : Nat) (hp : p + bs.length ≤ n) :
    (assemble e n p bs).toNat < 2 ^ (8 * n) := by
  induction bs generalizing p with
  | nil => simp [assemble]
  | cons b rest ih =>
    rw [List.length_cons] at hp
    have hin := sh_add_eight_le (e := e) (show p < n by omega)
    have hbyte : (b.setWidth 64 <<< sh e p n).toNat < 2 ^ (8 * n) := by
      apply Nat.lt_pow_two_of_testBit
      intro i hi
      rw [BitVec.testBit_toNat, getLsbD_byte_shiftLeft _ _ _ (by omega),
        BitVec.getLsbD_of_ge b (i - sh e p n) (by omega), Bool.and_false]
    rw [assemble, BitVec.toNat_or]
    exact Nat.or_lt_two_pow hbyte (ih (p + 1) (by omega))

/-- Two values of `8n` bits with the same lanes are equal. -/
theorem eq_of_byteAt_eq {x y : Word} (e : Endian) (hx : x.toNat < 2 ^ (8 * n)) (hy : y.toNat < 2 ^ (8 * n))
    (h : ∀ q < n, byteAt x (sh e q n) = byteAt y (sh e q n)) : x = y := by
  apply BitVec.eq_of_getLsbD_eq
  intro i _
  by_cases hi : i < 8 * n
  · obtain ⟨q, hq, r, hr, rfl⟩ := exists_sh_add e hi
    rw [← byteAt_getLsbD x _ hr, ← byteAt_getLsbD y _ hr, h q hq]
  · have hle : 2 ^ (8 * n) ≤ 2 ^ i := Nat.pow_le_pow_right (by decide) (by omega)
    rw [← BitVec.testBit_toNat, ← BitVec.testBit_toNat, Nat.testBit_lt_two_pow (hx.trans_le hle),
      Nat.testBit_lt_two_pow (hy.trans_le hle)]

@[simp] theorem wire_getElem {w : Nat} (v : BitVec w) (q : Nat) (hq : q < (wire e n v).length) :
    (wire e n v)[q] = byteAt v (sh e q n) := by
  simp [wire]

/-- Assembling the wire bytes of a value that fits the field gives the value. -/
theorem assemble_wire (hn : n ≤ 8) {v : Word} (hv : v.toNat < 2 ^ (8 * n)) : assemble e n 0 (wire e n v) = v := by
  refine eq_of_byteAt_eq e (assemble_toNat_lt hn _ 0 (by simp)) hv fun q hq => ?_
  rw [byteAt_assemble hn hq _ 0 (by simp)]
  simp [hq]

/-- The wire bytes of an assembly are the bytes assembled. -/
theorem wire_assemble (hn : n ≤ 8) {bs : List Byte} (hbs : bs.length = n) : wire e n (assemble e n 0 bs) = bs := by
  apply List.ext_getElem (by simp [hbs])
  intro q _ hq
  rw [wire_getElem, byteAt_assemble hn (hbs ▸ hq) bs 0 (by omega)]
  simp [hq]

/-- Settles O48: both directions are read lane by lane. -/
theorem wireAndAssemblyAreInverse : Obligations.WireAndAssemblyAreInverse :=
  fun _ _ hn => ⟨fun _ hv => assemble_wire hn hv, fun _ hbs => wire_assemble hn hbs⟩

end Sys2Proof.Machine
end

section
/-! What each step rule can do, said once: the branches of its pseudocode, each with its guard and its whole next state.
What a rule keeps or changes follows from these. -/

namespace Sys2Proof.Machine

/-- The two branches of `SEEK.RX` (R150). -/
theorem seekRule_cases (b : Byte) (s : State) :
    (shiftIn s.cfg.endian s.win b = magic ∧ seekRule b s = { s with win := magic }.enterHdr) ∨
    (shiftIn s.cfg.endian s.win b ≠ magic ∧
      seekRule b s = { s with win := shiftIn s.cfg.endian s.win b, st := .seek }) := by
  unfold seekRule
  dsimp only
  split
  · next hm => exact .inl ⟨hm, by rw [hm]⟩
  · next hm => exact .inr ⟨hm, rfl⟩

/-- The three branches of `CHAIN.RX` (R154). -/
theorem chainRule_cases (b : Byte) (s : State) :
    (s.k.toNat < 3 ∧ chainRule b s = { s with win := shiftIn s.cfg.endian s.win b, k := s.k + 1 }) ∨
    (3 ≤ s.k.toNat ∧ shiftIn s.cfg.endian s.win b = magic ∧ chainRule b s = { s with win := magic }.enterHdr) ∨
    (3 ≤ s.k.toNat ∧ shiftIn s.cfg.endian s.win b ≠ magic ∧ chainRule b s = s.resync) := by
  unfold chainRule
  dsimp only
  split
  · next hk => exact .inl ⟨hk, rfl⟩
  · next hk =>
    split
    · next hm => exact .inr (.inl ⟨Nat.le_of_not_lt hk, hm, by rw [hm]⟩)
    · next hm => exact .inr (.inr ⟨Nat.le_of_not_lt hk, hm, rfl⟩)

/-- A header byte writes `len` or `addr` (R152). -/
theorem hdrField_cases (b : Byte) (s : State) :
    (s.k.toNat < s.cfg.W ∧ hdrField b s = { s with len := s.len ||| lane s.cfg s.k.toNat b }) ∨
    (s.cfg.W ≤ s.k.toNat ∧ hdrField b s = { s with addr := s.addr ||| lane s.cfg (s.k.toNat - s.cfg.W) b }) := by
  unfold hdrField
  split
  · next hk => exact .inl ⟨hk, rfl⟩
  · next hk => exact .inr ⟨Nat.le_of_not_lt hk, rfl⟩

@[simp] theorem hdrField_cfg (b : Byte) (s : State) : (hdrField b s).cfg = s.cfg := by
  obtain ⟨-, h⟩ | ⟨-, h⟩ := hdrField_cases b s <;> rw [h]
@[simp] theorem hdrField_st (b : Byte) (s : State) : (hdrField b s).st = s.st := by
  obtain ⟨-, h⟩ | ⟨-, h⟩ := hdrField_cases b s <;> rw [h]
@[simp] theorem hdrField_crc (b : Byte) (s : State) : (hdrField b s).crc = s.crc := by
  obtain ⟨-, h⟩ | ⟨-, h⟩ := hdrField_cases b s <;> rw [h]
@[simp] theorem hdrField_done (b : Byte) (s : State) : (hdrField b s).done = s.done := by
  obtain ⟨-, h⟩ | ⟨-, h⟩ := hdrField_cases b s <;> rw [h]
@[simp] theorem hdrField_mem (b : Byte) (s : State) : (hdrField b s).mem = s.mem := by
  obtain ⟨-, h⟩ | ⟨-, h⟩ := hdrField_cases b s <;> rw [h]
@[simp] theorem hdrField_rx (b : Byte) (s : State) : (hdrField b s).rx = s.rx := by
  obtain ⟨-, h⟩ | ⟨-, h⟩ := hdrField_cases b s <;> rw [h]

/-- The three branches of `HDR.RX` (R152, R153): a byte before the last, the last one of an ENTRY header, the last one
of a DATA header. -/
theorem hdrRule_cases (b : Byte) (s : State) :
    ∃ t, t = hdrField b (s.driveCrc .upd b) ∧
      ((s.k.toNat ≠ 2 * s.cfg.W - 1 ∧ hdrRule b s = { t with k := s.k + 1 }) ∨
       (s.k.toNat = 2 * s.cfg.W - 1 ∧ t.len = 0 ∧ hdrRule b s = { t with k := 0, st := .ack }) ∨
       (s.k.toNat = 2 * s.cfg.W - 1 ∧ t.len ≠ 0 ∧ hdrRule b s = { t with k := 0, j := 0, acc := 0, st := .pay })) := by
  refine ⟨_, rfl, ?_⟩
  unfold hdrRule
  dsimp only
  split
  · next hk =>
    unfold State.hdrDone
    split
    · next hlen => exact .inr (.inl ⟨hk, hlen, rfl⟩)
    · next hlen => exact .inr (.inr ⟨hk, hlen, rfl⟩)
  · next hk => exact .inl ⟨hk, rfl⟩

/-- The two effects of `PAY.RX` (R180): a write is issued, for a full word or at the end of the payload, or the byte is
gathered. -/
theorem payRule_cases (b : Byte) (s : State) :
    ∃ t, t = { s.driveCrc .upd b with j := fit s.cfg (s.j + 1) } ∧
      (((payPos s = s.cfg.W - 1 ∨ t.j = s.len) ∧ payRule b s = t.issueWrite (payAddr s) (payWord b s)) ∨
       (payPos s ≠ s.cfg.W - 1 ∧ t.j ≠ s.len ∧ payRule b s = { t with acc := payWord b s, st := .pay })) := by
  refine ⟨_, rfl, ?_⟩
  unfold payRule
  dsimp only
  split
  · next hp => exact .inl ⟨.inl hp, rfl⟩
  · next hp =>
    split
    · next hj => exact .inl ⟨.inr hj, rfl⟩
    · next hj => exact .inr ⟨hp, hj, rfl⟩

/-- The two branches of `WR.MEM` on a request the memory accepts (R183): the packet's last write, or one before it. -/
theorem wrRule_cases {s : State} (hn : neverAccepted s = false) :
    (s.j = s.len ∧ wrRule s = { s.acceptWrite with k := 0, st := .ack }) ∨
    (s.j ≠ s.len ∧ wrRule s = { s.acceptWrite with st := .pay }) := by
  rw [wrRule_of_accepted hn]
  split
  · next hj => exact .inl ⟨hj, rfl⟩
  · next hj => exact .inr ⟨hj, rfl⟩

/-- The three branches of `ACK.TX` (R200, R201, R202): a byte before the last, the last one of an ENTRY packet, the last
one of a DATA packet. -/
theorem ackRule_cases (s : State) :
    ∃ t, t = s.giveTx (txData s) ∧
      ((s.k.toNat < 3 ∧ ackRule s = { t with k := s.k + 1 }) ∨
       (3 ≤ s.k.toNat ∧ s.len = 0 ∧ ackRule s = t.terminate) ∨
       (3 ≤ s.k.toNat ∧ s.len ≠ 0 ∧ ackRule s = { t with k := 0, win := 0, st := .chain })) := by
  refine ⟨_, rfl, ?_⟩
  unfold ackRule
  dsimp only
  split
  · next hk => exact .inl ⟨hk, rfl⟩
  · next hk =>
    unfold State.ackDone
    split
    · next hlen => exact .inr (.inl ⟨Nat.le_of_not_lt hk, hlen, rfl⟩)
    · next hlen => exact .inr (.inr ⟨Nat.le_of_not_lt hk, hlen, rfl⟩)

/-- With a clock edge as the next input, a step is that edge. -/
theorem step_of_edge {s : State} {p : Ports} {rest : List Input} (hi : s.inputs = .edge p :: rest) :
    step s = (fetchEdge p { s with inputs := rest }).outcome := by
  simp [step_eq, fetch, hi]

/-- A step that answers is counted off a run. -/
theorem run_succ_of_step {s u : State} (n : Nat) (hs : step s = .next u) :
    Host.Core.run Sys2Proof.core (n + 1) s = Host.Core.run Sys2Proof.core n u := by
  have hcore : Sys2Proof.core.step s = .next u := hs
  simp [Host.Core.run, hcore]

end Sys2Proof.Machine
end

section
/-! The invariants (R26). `Inv` is a clause of the FSM state the block is in, and two clauses that hold in every state:
words fit their width, memory its address space. In this form each branch of a step rule owes one clause. -/

namespace Sys2Proof.Machine

/-- What `Inv` says of the registers by the FSM state. -/
def StateClause (s : State) : Prop :=
  match s.st with
  | .seek => s.done = false
  | .hdr => s.done = false ∧ s.k.toNat < 2 * s.cfg.W
  | .pay =>
    s.done = false ∧ s.j.toNat < s.len.toNat ∧
      ∀ q, s.j.toNat % s.cfg.W ≤ q → q < s.cfg.W → byteAt s.acc (sh s.cfg.endian q s.cfg.W) = 0
  | .wr => s.done = false ∧ 1 ≤ s.j.toNat ∧ s.j.toNat ≤ s.len.toNat ∧ s.acc = 0
  | .ack => s.done = false ∧ s.k.toNat < 4
  | .chain => s.done = false ∧ s.k.toNat < 4
  | .done => s.done = true
  | .reserved => False

theorem Inv.stateClause {s : State} (h : Inv s) : StateClause s := by
  have hdone := h.doneFlag
  unfold StateClause
  cases hst : s.st
  case seek => simpa [hst] using hdone
  case hdr => exact ⟨by simpa [hst] using hdone, h.hdrPos hst⟩
  case pay => exact ⟨by simpa [hst] using hdone, (h.payCount hst).1, h.payLanes hst⟩
  case wr => exact ⟨by simpa [hst] using hdone, (h.wrCount hst).1, (h.wrCount hst).2, h.wrAcc hst⟩
  case ack => exact ⟨by simpa [hst] using hdone, h.ackPos (.inl hst)⟩
  case chain => exact ⟨by simpa [hst] using hdone, h.ackPos (.inr hst)⟩
  case done => exact hdone.1 hst
  case reserved => exact h.legalState hst

theorem Inv.of_stateClause {s : State} (h : StateClause s) (hw : WordsFit s) (hm : MemoryFits s.cfg s.mem) : Inv s where
  legalState hst := by simp [StateClause, hst] at h
  hdrPos hst := by
    simp only [StateClause, hst] at h
    exact h.2
  ackPos hst := by
    obtain hst | hst := hst <;> simp only [StateClause, hst] at h <;> exact h.2
  payCount hst := by
    simp only [StateClause, hst] at h
    obtain ⟨-, hj, -⟩ := h
    exact ⟨hj, fun h0 => by simp [h0] at hj⟩
  payLanes hst := by
    simp only [StateClause, hst] at h
    obtain ⟨-, -, hlanes⟩ := h
    exact hlanes
  wrCount hst := by
    simp only [StateClause, hst] at h
    obtain ⟨-, hpos, hle, -⟩ := h
    exact ⟨hpos, hle⟩
  wrAcc hst := by
    simp only [StateClause, hst] at h
    obtain ⟨-, -, -, hacc⟩ := h
    exact hacc
  doneFlag := by
    unfold StateClause at h
    cases hst : s.st <;> simp [hst] at h <;> simp [h]
  words := hw
  memory := hm

/-! ### What the invariants do not speak of -/

/-- `win`, `crc`, the fault record, the streams and the inputs stand in no clause. -/
theorem Inv.with_unread {s : State} (h : Inv s) (w c : Word32) (fs : List Fault) (bs : List Byte) (os : List Output)
    (is : List Input) : Inv { s with win := w, crc := c, faults := fs, rx := bs, out := os, inputs := is } :=
  .of_stateClause h.stateClause { h.words with } h.memory

theorem Inv.dropRx {s : State} (h : Inv s) : Inv s.dropRx := h.with_unread _ _ _ _ _ _

theorem Inv.giveTx {s : State} (h : Inv s) (b : Byte) : Inv (s.giveTx b) := h.with_unread _ _ _ _ _ _

theorem Inv.driveCrc {s : State} (h : Inv s) (op : CrcOp) (d : Byte) : Inv (s.driveCrc op d) :=
  h.with_unread _ _ _ _ _ _

theorem Inv.noteFault {s : State} (h : Inv s) : Inv s.noteFault := by
  obtain ⟨-, he⟩ | ⟨-, -, he⟩ | ⟨-, -, he⟩ := noteFault_cases s <;> rw [he]
  · rw [record_eq]; exact h.with_unread _ _ _ _ _ _
  · rw [record_eq]; exact h.with_unread _ _ _ _ _ _
  · exact h

/-! ### Memory -/

theorem MemoryFits.set {c : Cfg} {m : Memory} {a : Nat} (h : MemoryFits c m) (ha : a < 2 ^ c.bits) (b : Byte) :
    MemoryFits c (m.set a b) :=
  ⟨Memory.set_wf h.wf, Memory.set_bound h.bound ha⟩

theorem MemoryFits.memWrite {c : Cfg} {m : Memory} (h : MemoryFits c m) (a v : Word) :
    MemoryFits c (memWrite c a v m) :=
  ⟨memWrite_wf h.wf, memWrite_bound h.bound⟩

theorem Inv.otherWrite {s : State} (h : Inv s) (a : Word) (b : Byte) : Inv (otherWrite a b s) :=
  .of_stateClause h.stateClause { h.words with } (h.memory.set (byteAddr_lt _ _ _) b)

/-! ### Words -/

theorem fits_zero (c : Cfg) : Fits c 0 := Nat.two_pow_pos _

theorem fits_or {c : Cfg} {x y : Word} (hx : Fits c x) (hy : Fits c y) : Fits c (x ||| y) := by
  unfold Fits
  rw [BitVec.toNat_or]
  exact Nat.or_lt_two_pow hx hy

theorem lane_fits (c : Cfg) (p : Nat) (b : Byte) : Fits c (lane c p b) := fit_fits _ _

/-- A byte in a lane of the word is not cut off by the word's width. -/
theorem lane_eq_shiftLeft {c : Cfg} {p : Nat} (hp : p < c.W) (b : Byte) :
    lane c p b = b.setWidth 64 <<< sh c.endian p c.W := by
  have hW : c.W ≤ 8 := by obtain h | h := c.W_cases <;> omega
  exact fit_of_fits (by simpa [assemble, Cfg.bits] using assemble_toNat_lt (e := c.endian) hW [b] p hp)

/-- A byte in the lane of position `p` leaves every other lane zero. -/
theorem byteAt_lane_of_ne {c : Cfg} {p q : Nat} (hp : p < c.W) (hq : q < c.W) (hne : p ≠ q) (b : Byte) :
    byteAt (lane c p b) (sh c.endian q c.W) = 0 := by
  have hW : c.W ≤ 8 := by obtain h | h := c.W_cases <;> omega
  rw [lane_eq_shiftLeft hp, byteAt_byte_shiftLeft_sh hW hp hq, if_neg hne]

/-! ### The step rules -/

/-- Outside `DONE` a state that meets the invariants has `done = 0`. -/
theorem Inv.done_eq_false {s : State} (h : Inv s) (hst : s.st ≠ .done) : s.done = false := by
  simpa [hst] using h.doneFlag

/-- The byte counter starts within the four bytes of an acknowledgment or a chain check. -/
theorem zero_toNat_lt_four : (0 : BitVec 4).toNat < 4 := by decide

theorem enterHdr_inv {s : State} (hd : s.done = false) (hw : WordsFit s) (hm : MemoryFits s.cfg s.mem) :
    Inv s.enterHdr := by
  have hpos : 0 < 2 * s.cfg.W := Nat.mul_pos (by decide) s.cfg.W_pos
  exact .of_stateClause ⟨hd, hpos⟩ { hw with len := fits_zero _, addr := fits_zero _ } hm

theorem seekRule_inv {s : State} (b : Byte) (h : Inv s) (hst : s.st = .seek) : Inv (seekRule b s) := by
  have hd := h.done_eq_false (by simp [hst])
  obtain ⟨-, he⟩ | ⟨-, he⟩ := seekRule_cases b s <;> rw [he]
  · exact enterHdr_inv hd { h.words with } h.memory
  · exact .of_stateClause hd { h.words with } h.memory

theorem chainRule_inv {s : State} (b : Byte) (h : Inv s) (hst : s.st = .chain) : Inv (chainRule b s) := by
  have hd := h.done_eq_false (by simp [hst])
  obtain ⟨hk, he⟩ | ⟨-, -, he⟩ | ⟨-, -, he⟩ := chainRule_cases b s <;> rw [he]
  · have hk' : (s.k + 1).toNat < 4 := by bv_omega
    have hclause : StateClause { s with k := s.k + 1 } := by
      simp only [StateClause, hst]
      exact ⟨hd, hk'⟩
    exact .of_stateClause hclause { h.words with } h.memory
  · exact enterHdr_inv hd { h.words with } h.memory
  · exact .of_stateClause hd { h.words with } h.memory

theorem hdrField_wordsFit {s : State} (b : Byte) (h : WordsFit s) : WordsFit (hdrField b s) := by
  obtain ⟨-, he⟩ | ⟨-, he⟩ := hdrField_cases b s <;> rw [he]
  · exact { h with len := fits_or h.len (lane_fits _ _ _) }
  · exact { h with addr := fits_or h.addr (lane_fits _ _ _) }

theorem hdrRule_inv {s : State} (b : Byte) (h : Inv s) (hst : s.st = .hdr) : Inv (hdrRule b s) := by
  have hk := h.hdrPos hst
  obtain ⟨t, ht, hcases⟩ := hdrRule_cases b s
  have hw : WordsFit t := ht ▸ hdrField_wordsFit b (h.driveCrc .upd b).words
  have htc : t.cfg = s.cfg := by simp [ht]
  have htst : t.st = .hdr := by simp [ht, hst]
  have hd : t.done = false := by simpa [ht] using h.done_eq_false (by simp [hst])
  have hm : MemoryFits t.cfg t.mem := by simpa [ht] using h.memory
  obtain ⟨hne, he⟩ | ⟨-, -, he⟩ | ⟨-, hlen, he⟩ := hcases <;> rw [he]
  · have hk' : (s.k + 1).toNat < 2 * t.cfg.W := by
      rw [htc]
      obtain hW | hW := s.cfg.W_cases <;> rw [hW] at hk hne ⊢ <;> bv_omega
    have hclause : StateClause { t with k := s.k + 1 } := by
      simp only [StateClause, htst]
      exact ⟨hd, hk'⟩
    exact .of_stateClause hclause { hw with } hm
  · exact .of_stateClause ⟨hd, zero_toNat_lt_four⟩ { hw with } hm
  · have hpos : 0 < t.len.toNat := by bv_omega
    exact .of_stateClause ⟨hd, hpos, fun q _ _ => byteAt_zero _⟩ { hw with j := fits_zero _, acc := fits_zero _ } hm

/-- Below `len` the count of payload bytes does not wrap. -/
theorem fit_add_one_toNat {c : Cfg} {j len : Word} (hj : j.toNat < len.toNat) (hlen : Fits c len) :
    (fit c (j + 1)).toNat = j.toNat + 1 := by
  have hadd : (j + 1).toNat = j.toNat + 1 := by bv_omega
  rw [fit_toNat, hadd, Nat.mod_eq_of_lt (by omega)]

/-- Within a word the next payload byte goes to the next position. -/
theorem payPos_succ {s : State} (hp : payPos s ≠ s.cfg.W - 1) : (s.j.toNat + 1) % s.cfg.W = payPos s + 1 := by
  unfold payPos at hp ⊢
  obtain hW | hW := s.cfg.W_cases <;> rw [hW] at hp ⊢ <;> omega

/-- A lane past the position of the byte taken is as it was. -/
theorem byteAt_payWord {s : State} (b : Byte) {q : Nat} (hpq : payPos s < q) (hq : q < s.cfg.W) :
    byteAt (payWord b s) (sh s.cfg.endian q s.cfg.W) = byteAt s.acc (sh s.cfg.endian q s.cfg.W) := by
  rw [payWord, byteAt_or, byteAt_lane_of_ne (hpq.trans hq) hq hpq.ne]
  exact BitVec.or_zero

theorem payRule_inv {s : State} (b : Byte) (h : Inv s) (hst : s.st = .pay) : Inv (payRule b s) := by
  have hd := h.done_eq_false (by simp [hst])
  obtain ⟨hlt, -⟩ := h.payCount hst
  have hj := fit_add_one_toNat hlt h.words.len
  have hfit : Fits s.cfg (payWord b s) := fits_or h.words.acc (lane_fits _ _ _)
  obtain ⟨t, rfl, ⟨-, he⟩ | ⟨hp, hne, he⟩⟩ := payRule_cases b s <;> rw [he]
  · have hpos : 1 ≤ (fit s.cfg (s.j + 1)).toNat := by omega
    have hle : (fit s.cfg (s.j + 1)).toNat ≤ s.len.toNat := by omega
    exact .of_stateClause ⟨hd, hpos, hle, rfl⟩
      { h.words with j := fit_fits _ _, acc := fits_zero _, wrAddr := fit_fits _ _, wrData := hfit } h.memory
  · have hlt' : (fit s.cfg (s.j + 1)).toNat < s.len.toNat := by
      have hne' : (fit s.cfg (s.j + 1)).toNat ≠ s.len.toNat := fun heq => hne (BitVec.eq_of_toNat_eq heq)
      omega
    have hlanes : ∀ q, (fit s.cfg (s.j + 1)).toNat % s.cfg.W ≤ q → q < s.cfg.W →
        byteAt (payWord b s) (sh s.cfg.endian q s.cfg.W) = 0 := by
      intro q hq hqW
      rw [hj, payPos_succ hp] at hq
      rw [byteAt_payWord b hq hqW]
      exact h.payLanes hst q (Nat.le_of_succ_le hq) hqW
    exact .of_stateClause ⟨hd, hlt', hlanes⟩ { h.words with j := fit_fits _ _, acc := hfit } h.memory

theorem wrRule_inv {s : State} (h : Inv s) (hst : s.st = .wr) (hn : neverAccepted s = false) : Inv (wrRule s) := by
  have hd := h.done_eq_false (by simp [hst])
  have hacc := h.wrAcc hst
  obtain ⟨-, hle⟩ := h.wrCount hst
  have hm := h.memory.memWrite s.wrAddr s.wrData
  obtain ⟨-, he⟩ | ⟨hne, he⟩ := wrRule_cases hn <;> rw [he]
  · exact .of_stateClause ⟨hd, zero_toNat_lt_four⟩ { h.words with } hm
  · have hlt : s.j.toNat < s.len.toNat := by bv_omega
    exact .of_stateClause ⟨hd, hlt, fun q _ _ => by simp [hacc]⟩ { h.words with } hm

theorem ackRule_inv {s : State} (h : Inv s) (hst : s.st = .ack) : Inv (ackRule s) := by
  have hd := h.done_eq_false (by simp [hst])
  obtain ⟨t, rfl, ⟨hk, he⟩ | ⟨-, -, he⟩ | ⟨-, -, he⟩⟩ := ackRule_cases s <;> rw [he]
  · have hk' : (s.k + 1).toNat < 4 := by bv_omega
    have hclause : StateClause { s.giveTx (txData s) with k := s.k + 1 } := by
      simp only [StateClause, State.giveTx_st, hst]
      exact ⟨hd, hk'⟩
    exact .of_stateClause hclause { h.words with } h.memory
  · exact .of_stateClause rfl { h.words with entry := h.words.addr } h.memory
  · exact .of_stateClause ⟨hd, zero_toNat_lt_four⟩ { h.words with } h.memory

theorem restartRule_inv {s : State} (h : Inv s) : Inv (restartRule s) :=
  .of_stateClause rfl { h.words with } h.memory

/-- The cleared registers (R250) meet the invariants over any memory that fits. -/
theorem clearRegs_inv {s : State} (hm : MemoryFits s.cfg s.mem) : Inv s.clearRegs :=
  .of_stateClause rfl
    ⟨fits_zero _, fits_zero _, fits_zero _, fits_zero _, fits_zero _, fits_zero _, fits_zero _⟩ hm

/-! ### Serving, clock edges, steps, runs -/

theorem serve_inv {s : State} (h : Inv s) : Inv (serve s) := by
  obtain ⟨b, r, -, ⟨hst, he⟩ | ⟨hst, he⟩ | ⟨hst, he⟩ | ⟨hst, he⟩⟩ | ⟨hst, hn, he⟩ | ⟨hst, he⟩ | he := serve_cases s <;>
    rw [he]
  · exact seekRule_inv b h.dropRx hst
  · exact hdrRule_inv b h.dropRx hst
  · exact payRule_inv b h.dropRx hst
  · exact chainRule_inv b h.dropRx hst
  · exact wrRule_inv h hst hn
  · exact ackRule_inv h hst
  · exact h.noteFault

theorem farSide_memoryFits (p : Ports) {s : State} (h : MemoryFits s.cfg s.mem) :
    MemoryFits (farSide p s).cfg (farSide p s).mem := by
  obtain he | he | ⟨-, he⟩ | he := farSide_cases p s <;> rw [he]
  · exact h
  · exact h
  · exact h.memWrite _ _
  · exact h

theorem resetEdge_inv (p : Ports) {s : State} (h : MemoryFits s.cfg s.mem) : Inv (resetEdge p s) :=
  clearRegs_inv (farSide_memoryFits p h)

/-- A clock edge answers a next state, and that state meets the invariants. -/
theorem fetchEdge_inv (p : Ports) {s : State} (h : Inv s) : ∃ t, (fetchEdge p s).outcome = .next t ∧ Inv t := by
  obtain ⟨-, he⟩ | ⟨-, ⟨b, r, -, -, ⟨hst, he⟩ | ⟨hst, he⟩ | ⟨hst, he⟩ | ⟨hst, he⟩⟩ | ⟨hst, -, hn, he⟩ |
    ⟨hst, -, he⟩ | ⟨-, -, he⟩ | he⟩ := edge_cases p s <;> refine ⟨_, he, ?_⟩
  · exact resetEdge_inv p h.noteFault.memory
  · exact seekRule_inv b h.dropRx hst
  · exact hdrRule_inv b h.dropRx hst
  · exact payRule_inv b h.dropRx hst
  · exact chainRule_inv b h.dropRx hst
  · exact wrRule_inv h hst hn
  · exact ackRule_inv h hst
  · exact restartRule_inv h
  · exact h.noteFault

/-- Every input answers a next state that meets the invariants. -/
theorem step_inv {s : State} (h : Inv s) : ∃ t, step s = .next t ∧ Inv t := by
  obtain ⟨p, u, -, hu, he⟩ | ⟨op, d, r, -, he⟩ | ⟨bs, r, -, n, bs', he⟩ | ⟨a, b, r, -, he⟩ := step_cases s
  · have hinv : Inv u := by rw [hu]; exact h.with_unread _ _ _ _ _ _
    obtain ⟨t, ht, hk⟩ := fetchEdge_inv p hinv
    exact ⟨t, he.trans ht, hk⟩
  · have hinv : Inv { s with inputs := r } := h.with_unread _ _ _ _ _ _
    exact ⟨_, he, hinv.driveCrc op d⟩
  · have hinv : Inv { s with rx := bs', inputs := r } := h.with_unread _ _ _ _ _ _
    exact ⟨_, he, serveN_induct (P := Inv) (fun _ => serve_inv) n _ hinv⟩
  · have hinv : Inv { s with inputs := r } := h.with_unread _ _ _ _ _ _
    exact ⟨_, he, hinv.otherWrite a b⟩

/-- What every step keeps, a run keeps. -/
theorem run_induct {P : State → Prop} (hstep : ∀ s t, P s → step s = .next t → P t) (n : Nat) (s t : State) (h : P s)
    (hrun : Host.Core.run Sys2Proof.core n s = .next t) : P t := by
  induction n generalizing s with
  | zero => exact Host.Outcome.next.inj hrun ▸ h
  | succ n ih =>
    obtain ⟨u, hu, -⟩ := step_keepsHistory s
    rw [run_succ_of_step n hu] at hrun
    exact ih u (hstep s u h hu) hrun

/-- Settles O36: the reset state is a block with cleared registers and an empty memory. -/
theorem resetMeetsTheInvariants : Obligations.ResetMeetsTheInvariants := by
  intro c
  have hm : MemoryFits c [] := ⟨rfl, by simp⟩
  exact clearRegs_inv (s := State.resetWith c) hm

/-- Settles O37: the next state is the one `step_inv` speaks of. -/
theorem everyStepKeepsTheInvariants : Obligations.EveryStepKeepsTheInvariants := by
  intro s t h ht
  obtain ⟨u, hu, hinv⟩ := step_inv h
  obtain rfl : u = t := by simpa [hu] using ht
  exact hinv

/-- Settles O38: reset meets the invariants whatever is sent and done, and every step of the run keeps them. -/
theorem everyReachableStateMeetsTheInvariants : Obligations.EveryReachableStateMeetsTheInvariants := by
  intro c sent ins n t hrun
  have hstart := (resetMeetsTheInvariants c).with_unread 0 crcInit [] sent [] ins
  exact run_induct everyStepKeepsTheInvariants n _ t hstart hrun

end Sys2Proof.Machine
end

section
/-! Who writes `crc` (R25) and `done` (R24), rule by rule and then at a clock edge. -/

namespace Sys2Proof.Machine

/-! ### `crc` -/

theorem seekRule_crc (b : Byte) (s : State) :
    (seekRule b s).crc = s.crc ∨ ((seekRule b s).st = .hdr ∧ (seekRule b s).crc = crcMagic s.cfg.endian) := by
  obtain ⟨-, he⟩ | ⟨-, he⟩ := seekRule_cases b s <;> rw [he]
  · exact .inr ⟨rfl, rfl⟩
  · exact .inl rfl

theorem chainRule_crc (b : Byte) (s : State) :
    (chainRule b s).crc = s.crc ∨ ((chainRule b s).st = .hdr ∧ (chainRule b s).crc = crcMagic s.cfg.endian) := by
  obtain ⟨-, he⟩ | ⟨-, -, he⟩ | ⟨-, -, he⟩ := chainRule_cases b s <;> rw [he]
  · exact .inl rfl
  · exact .inr ⟨rfl, rfl⟩
  · exact .inl rfl

@[simp] theorem hdrRule_crc (b : Byte) (s : State) : (hdrRule b s).crc = crc8 s.crc b := by
  obtain ⟨t, rfl, ⟨-, he⟩ | ⟨-, -, he⟩ | ⟨-, -, he⟩⟩ := hdrRule_cases b s <;> rw [he] <;> simp [crcUnit]

@[simp] theorem payRule_crc (b : Byte) (s : State) : (payRule b s).crc = crc8 s.crc b := by
  obtain ⟨t, rfl, ⟨-, he⟩ | ⟨-, -, he⟩⟩ := payRule_cases b s <;> rw [he] <;> simp [crcUnit]

@[simp] theorem ackRule_crc (s : State) : (ackRule s).crc = s.crc := by
  obtain ⟨t, rfl, ⟨-, he⟩ | ⟨-, -, he⟩ | ⟨-, -, he⟩⟩ := ackRule_cases s <;> rw [he] <;> rfl

@[simp] theorem wrRule_crc (s : State) : (wrRule s).crc = s.crc := by
  cases hn : neverAccepted s
  case true => simp [wrRule_of_neverAccepted hn]
  case false => obtain ⟨-, he⟩ | ⟨-, he⟩ := wrRule_cases hn <;> rw [he] <;> rfl

/-! ### The byte taken -/

@[simp] theorem hdrRule_rx (b : Byte) (s : State) : (hdrRule b s).rx = s.rx := by
  obtain ⟨t, rfl, ⟨-, he⟩ | ⟨-, -, he⟩ | ⟨-, -, he⟩⟩ := hdrRule_cases b s <;> rw [he] <;> simp

@[simp] theorem payRule_rx (b : Byte) (s : State) : (payRule b s).rx = s.rx := by
  obtain ⟨t, rfl, ⟨-, he⟩ | ⟨-, -, he⟩⟩ := payRule_cases b s <;> rw [he] <;> simp

/-! ### `done` -/

@[simp] theorem seekRule_done (b : Byte) (s : State) : (seekRule b s).done = s.done := by
  obtain ⟨-, he⟩ | ⟨-, he⟩ := seekRule_cases b s
  · rw [he]; rfl
  · rw [he]

@[simp] theorem chainRule_done (b : Byte) (s : State) : (chainRule b s).done = s.done := by
  obtain ⟨-, he⟩ | ⟨-, -, he⟩ | ⟨-, -, he⟩ := chainRule_cases b s <;> rw [he] <;> rfl

@[simp] theorem hdrRule_done (b : Byte) (s : State) : (hdrRule b s).done = s.done := by
  obtain ⟨t, rfl, ⟨-, he⟩ | ⟨-, -, he⟩ | ⟨-, -, he⟩⟩ := hdrRule_cases b s <;> rw [he] <;> simp

@[simp] theorem payRule_done (b : Byte) (s : State) : (payRule b s).done = s.done := by
  obtain ⟨t, rfl, ⟨-, he⟩ | ⟨-, -, he⟩⟩ := payRule_cases b s <;> rw [he] <;> simp

@[simp] theorem wrRule_done (s : State) : (wrRule s).done = s.done := by
  cases hn : neverAccepted s
  case true => simp [wrRule_of_neverAccepted hn]
  case false => obtain ⟨-, he⟩ | ⟨-, he⟩ := wrRule_cases hn <;> rw [he] <;> rfl

/-- `ACK.TX` keeps `done`, or hands the address of an ENTRY packet out. -/
theorem ackRule_done (s : State) :
    (ackRule s).done = s.done ∨
    (s.len = 0 ∧ 3 ≤ s.k.toNat ∧ (ackRule s).done = true ∧ (ackRule s).st = .done ∧ (ackRule s).entry = s.addr) := by
  obtain ⟨t, rfl, ⟨-, he⟩ | ⟨hk, hlen, he⟩ | ⟨-, -, he⟩⟩ := ackRule_cases s <;> rw [he]
  · exact .inl rfl
  · exact .inr ⟨hlen, hk, rfl, rfl, rfl⟩
  · exact .inl rfl

/-! ### At a clock edge -/

/-- Across a clock edge `crc` is unchanged, or one of its writers acted. -/
theorem fetchEdge_crc (p : Ports) (s : State) :
    ∃ t, (fetchEdge p s).outcome = .next t ∧
      (t.crc = s.crc ∨ (p.rst = true ∧ t.crc = crcInit) ∨
       ((s.st = .seek ∨ s.st = .chain) ∧ t.st = .hdr ∧ t.crc = crcMagic s.cfg.endian) ∨
       ((s.st = .hdr ∨ s.st = .pay) ∧ ∃ b r, s.rx = b :: r ∧ t.rx = r ∧ t.crc = crc8 s.crc b)) := by
  obtain ⟨hrst, he⟩ | ⟨-, ⟨b, r, hrx, -, ⟨hst, he⟩ | ⟨hst, he⟩ | ⟨hst, he⟩ | ⟨hst, he⟩⟩ | ⟨-, -, -, he⟩ | ⟨-, -, he⟩ |
    ⟨-, -, he⟩ | he⟩ := edge_cases p s <;> refine ⟨_, he, ?_⟩
  · exact .inr (.inl ⟨hrst, rfl⟩)
  · exact (seekRule_crc b s.dropRx).imp_right fun hmagic => .inr (.inl ⟨.inl hst, hmagic⟩)
  · exact .inr (.inr (.inr ⟨.inl hst, b, r, hrx, by simp [hrx], by simp⟩))
  · exact .inr (.inr (.inr ⟨.inr hst, b, r, hrx, by simp [hrx], by simp⟩))
  · exact (chainRule_crc b s.dropRx).imp_right fun hmagic => .inr (.inl ⟨.inr hst, hmagic⟩)
  · exact .inl (wrRule_crc s)
  · exact .inl (ackRule_crc s)
  · exact .inl rfl
  · exact .inl s.noteFault_crc

/-- Settles O39: the edge is the next step, and `fetchEdge_crc` names the writers. -/
theorem onlyTheNamedWritersChangeCrc : Obligations.OnlyTheNamedWritersChangeCrc := by
  intro s t p rest hi ht
  rw [step_of_edge hi] at ht
  obtain ⟨u, hu, hcrc⟩ := fetchEdge_crc p { s with inputs := rest }
  obtain rfl : u = t := by simpa [hu] using ht
  exact hcrc

/-- Across a clock edge `done` is unchanged, or the last byte of an ENTRY packet's acknowledgment raised it, or reset or
a restart in `DONE` cleared it. -/
theorem fetchEdge_done (p : Ports) (s : State) :
    ∃ t, (fetchEdge p s).outcome = .next t ∧
      (t.done = s.done ∨
       (t.done = true ∧ s.st = .ack ∧ s.len = 0 ∧ 3 ≤ s.k.toNat ∧ p.txReady = true ∧ t.st = .done ∧ t.entry = s.addr) ∨
       (t.done = false ∧ (p.rst = true ∨ (s.st = .done ∧ p.restart = true)))) := by
  obtain ⟨hrst, he⟩ | ⟨-, ⟨b, r, -, -, ⟨-, he⟩ | ⟨-, he⟩ | ⟨-, he⟩ | ⟨-, he⟩⟩ | ⟨-, -, -, he⟩ | ⟨hst, htx, he⟩ |
    ⟨hst, hrestart, he⟩ | he⟩ := edge_cases p s <;> refine ⟨_, he, ?_⟩
  · exact .inr (.inr ⟨rfl, .inl hrst⟩)
  · exact .inl (seekRule_done b s.dropRx)
  · exact .inl (hdrRule_done b s.dropRx)
  · exact .inl (payRule_done b s.dropRx)
  · exact .inl (chainRule_done b s.dropRx)
  · exact .inl (wrRule_done s)
  · obtain hd | ⟨hlen, hk, hd, hdone, hentry⟩ := ackRule_done s
    · exact .inl hd
    · exact .inr (.inl ⟨hd, hst, hlen, hk, htx, hdone, hentry⟩)
  · exact .inr (.inr ⟨rfl, .inr ⟨hst, hrestart⟩⟩)
  · exact .inl s.noteFault_done

/-- Settles O40: `fetchEdge_done` names what raises `done` and what clears it. -/
theorem doneRisesOnlyAfterEntryPacket : Obligations.DoneRisesOnlyAfterEntryPacket := by
  intro s t p rest hi ht
  rw [step_of_edge hi] at ht
  obtain ⟨u, hu, hdone⟩ := fetchEdge_done p { s with inputs := rest }
  obtain rfl : u = t := by simpa [hu] using ht
  obtain hkept | ⟨hset, hrise⟩ | ⟨hclear, hfall⟩ := hdone
  · have hsame : u.done = s.done := hkept
    exact ⟨fun h0 h1 => by simp [hsame, h0] at h1, fun h1 h0 => by simp [hsame, h1] at h0⟩
  · exact ⟨fun _ _ => hrise, by simp [hset]⟩
  · exact ⟨by simp [hclear], fun _ _ => hfall⟩

end Sys2Proof.Machine
end

section
/-! What a memory write places where (R61), and which instructions write none. -/

namespace Sys2Proof.Machine

/-! ### `MemWrite` -/

/-- A word has fewer bytes than the address space. -/
theorem W_le_two_pow_bits (c : Cfg) : c.W ≤ 2 ^ c.bits := by
  obtain h | h := c.W_cases <;> simp [Cfg.bits, h]

/-- The bytes of one word go to different addresses, even where the word wraps around the address space. -/
theorem byteAddr_injOn {c : Cfg} (a : Word) {i n : Nat} (hi : i < c.W) (hn : n < c.W)
    (h : byteAddr c a i = byteAddr c a n) : i = n := by
  have hW := W_le_two_pow_bits c
  have hmod : i ≡ n [MOD 2 ^ c.bits] := Nat.ModEq.add_left_cancel' a.toNat h
  exact hmod.eq_of_lt_of_lt (hi.trans_le hW) (hn.trans_le hW)

/-- The first `n` byte writes leave every address but theirs. -/
theorem read_memWriteBytes_of_ne {c : Cfg} {a v : Word} {n x : Nat} {m : Memory}
    (hx : ∀ i < n, x ≠ byteAddr c a i) :
    Memory.read (memWriteBytes c a v n m) x = Memory.read m x := by
  induction n with
  | zero => rfl
  | succ n ih =>
    rw [memWriteBytes, Memory.read_set_ne (hx n n.lt_succ_self)]
    exact ih fun i hi => hx i (hi.trans n.lt_succ_self)

/-- Each of the first `n` byte writes of a word is what its address then reads. -/
theorem read_memWriteBytes {c : Cfg} {a v : Word} {n : Nat} {m : Memory} (hn : n ≤ c.W) {i : Nat} (hi : i < n) :
    Memory.read (memWriteBytes c a v n m) (byteAddr c a i) = some (byteAt v (sh c.endian i c.W)) := by
  induction n with
  | zero => exact absurd hi (Nat.not_lt_zero i)
  | succ n ih =>
    rw [memWriteBytes]
    obtain hlt | rfl := Nat.lt_succ_iff_lt_or_eq.mp hi
    · have hne : byteAddr c a i ≠ byteAddr c a n := fun h => hlt.ne (byteAddr_injOn a (by omega) hn h)
      rw [Memory.read_set_ne hne, ih (Nat.le_of_succ_le hn) hlt]
    · exact Memory.read_set_self _ _ _

/-- After `MemWrite` the address of lane `i` reads as that lane. -/
theorem read_memWrite {c : Cfg} {a v : Word} {m : Memory} {i : Nat} (hi : i < c.W) :
    Memory.read (memWrite c a v m) (byteAddr c a i) = some (byteAt v (sh c.endian i c.W)) :=
  read_memWriteBytes le_rfl hi

/-- After `MemWrite` every address but the word's reads as before. -/
theorem read_memWrite_of_ne {c : Cfg} {a v : Word} {m : Memory} {x : Nat} (hx : ∀ i < c.W, x ≠ byteAddr c a i) :
    Memory.read (memWrite c a v m) x = Memory.read m x :=
  read_memWriteBytes_of_ne hx

/-- An aligned word of the address space does not wrap. -/
theorem byteAddr_of_aligned {c : Cfg} {a : Word} (ha : Fits c a) (hal : a.toNat % c.W = 0) {i : Nat} (hi : i < c.W) :
    byteAddr c a i = a.toNat + i := by
  have hend : a.toNat + i < 2 ^ c.bits := by
    unfold Fits at ha
    obtain hW | hW := c.W_cases <;> simp only [Cfg.bits, hW] at ha hal hi ⊢ <;> omega
  exact Nat.mod_eq_of_lt hend

/-- Settles O13: `read_memWrite` with the lane written as a bit field, and its frame. -/
theorem memWritePlacesLanes : Obligations.MemWritePlacesLanes := by
  intro c a v m
  refine ⟨fun i hi => ?_, fun x hx => read_memWrite_of_ne hx, fun ha hal i hi => byteAddr_of_aligned ha hal hi⟩
  have hlane : byteAt v (sh c.endian i c.W) =
      v.extractLsb' (if c.endian = .le then 8 * i else 8 * (c.W - 1 - i)) 8 := by
    cases c.endian <;> rfl
  exact hlane ▸ read_memWrite hi

/-- Settles O44: the step is one byte write at the address modulo `2^AW`. -/
theorem otherAgentsWriteChangesOneByte : Obligations.OtherAgentsWriteChangesOneByte := by
  intro s a b rest hi
  have hstep : step s = .next (otherWrite a b { s with inputs := rest }) := by
    simp [step_eq, fetch, hi, Fetched.outcome]
  exact ⟨s.mem.set (byteAddr s.cfg a 0) b, hstep, Memory.read_set_self _ _ _, fun _ hx => Memory.read_set_ne hx⟩

/-! ### The step rules but `WR.MEM` leave memory -/

@[simp] theorem seekRule_mem (b : Byte) (s : State) : (seekRule b s).mem = s.mem := by
  obtain ⟨-, he⟩ | ⟨-, he⟩ := seekRule_cases b s
  · rw [he]; rfl
  · rw [he]

@[simp] theorem chainRule_mem (b : Byte) (s : State) : (chainRule b s).mem = s.mem := by
  obtain ⟨-, he⟩ | ⟨-, -, he⟩ | ⟨-, -, he⟩ := chainRule_cases b s <;> rw [he] <;> rfl

@[simp] theorem hdrRule_mem (b : Byte) (s : State) : (hdrRule b s).mem = s.mem := by
  obtain ⟨t, rfl, ⟨-, he⟩ | ⟨-, -, he⟩ | ⟨-, -, he⟩⟩ := hdrRule_cases b s <;> rw [he] <;> simp

@[simp] theorem payRule_mem (b : Byte) (s : State) : (payRule b s).mem = s.mem := by
  obtain ⟨t, rfl, ⟨-, he⟩ | ⟨-, -, he⟩⟩ := payRule_cases b s <;> rw [he] <;> simp

@[simp] theorem ackRule_mem (s : State) : (ackRule s).mem = s.mem := by
  obtain ⟨t, rfl, ⟨-, he⟩ | ⟨-, -, he⟩ | ⟨-, -, he⟩⟩ := ackRule_cases s <;> rw [he] <;> rfl

/-- Settles O43: each step rule and each CRC operation but `WR.MEM` leaves the whole of memory. -/
theorem otherInstructionsLeaveMemory : Obligations.OtherInstructionsLeaveMemory := by
  intro s t i a hf hw ht
  suffices hmem : t.mem = s.mem by rw [hmem]
  cases i with
  | pktData len addr payload => exact absurd rfl hf
  | pktEntry addr => exact absurd rfl hf
  | wrMem => exact absurd rfl hw
  | seekRx b => obtain ⟨-, rfl⟩ := inState_eq_next.mp ht; exact seekRule_mem b s
  | hdrRx b => obtain ⟨-, rfl⟩ := inState_eq_next.mp ht; exact hdrRule_mem b s
  | payRx b => obtain ⟨-, rfl⟩ := inState_eq_next.mp ht; exact payRule_mem b s
  | chainRx b => obtain ⟨-, rfl⟩ := inState_eq_next.mp ht; exact chainRule_mem b s
  | ackTx => obtain ⟨-, rfl⟩ := inState_eq_next.mp ht; exact ackRule_mem s
  | doneRestart => obtain ⟨-, rfl⟩ := inState_eq_next.mp ht; rfl
  | crcHold => obtain rfl := Host.Outcome.next.inj ht; rfl
  | crcInit => obtain rfl := Host.Outcome.next.inj ht; rfl
  | crcLoadm => obtain rfl := Host.Outcome.next.inj ht; rfl
  | crcUpd din => obtain rfl := Host.Outcome.next.inj ht; rfl

end Sys2Proof.Machine
end

section
/-! When the acknowledgment starts (R72, R153, R183): which step rules can enter `ACK`, and what a pending write holds
back. -/

namespace Sys2Proof.Machine

theorem seekRule_st_ne_ack (b : Byte) (s : State) : (seekRule b s).st ≠ .ack := by
  obtain ⟨-, he⟩ | ⟨-, he⟩ := seekRule_cases b s <;> rw [he] <;> simp

theorem chainRule_st_ne_ack (b : Byte) {s : State} (hst : s.st = .chain) : (chainRule b s).st ≠ .ack := by
  obtain ⟨-, he⟩ | ⟨-, -, he⟩ | ⟨-, -, he⟩ := chainRule_cases b s <;> rw [he] <;> simp [hst]

theorem payRule_st_ne_ack (b : Byte) (s : State) : (payRule b s).st ≠ .ack := by
  obtain ⟨t, rfl, ⟨-, he⟩ | ⟨-, -, he⟩⟩ := payRule_cases b s <;> rw [he] <;> simp

/-- A header byte enters `ACK` only as the last one of an ENTRY header (R153). -/
theorem hdrRule_len_of_ack (b : Byte) {s : State} (hst : s.st = .hdr) (h : (hdrRule b s).st = .ack) :
    (hdrRule b s).len = 0 := by
  obtain ⟨t, rfl, ⟨-, he⟩ | ⟨-, hlen, he⟩ | ⟨-, -, he⟩⟩ := hdrRule_cases b s <;> rw [he] at h ⊢
  · simp [hst] at h
  · exact hlen
  · simp at h

@[simp] theorem wrRule_rx (s : State) : (wrRule s).rx = s.rx := by
  cases hn : neverAccepted s
  case true => simp [wrRule_of_neverAccepted hn]
  case false => obtain ⟨-, he⟩ | ⟨-, he⟩ := wrRule_cases hn <;> rw [he] <;> rfl

/-- An accepted write is the one output of its step. -/
theorem wrRule_out {s : State} (hn : neverAccepted s = false) :
    (wrRule s).out = s.out ++ [.write s.wrAddr s.wrData] := by
  obtain ⟨-, he⟩ | ⟨-, he⟩ := wrRule_cases hn <;> rw [he] <;> rfl

/-- `WR.MEM` enters `ACK` only with the packet's last write (R183). -/
theorem wrRule_count_of_ack {s : State} (hn : neverAccepted s = false) (h : (wrRule s).st = .ack) : s.j = s.len := by
  obtain ⟨hj, -⟩ | ⟨-, he⟩ := wrRule_cases hn
  · exact hj
  · simp [he] at h

/-- Across a clock edge without `rst` a pending write lets no byte in or out. -/
theorem fetchEdge_of_wr {p : Ports} {s : State} (hrst : p.rst = false) (hst : s.st = .wr) :
    ∃ t, (fetchEdge p s).outcome = .next t ∧ t.rx = s.rx ∧
      (t.out = s.out ∨ t.out = s.out ++ [.write s.wrAddr s.wrData]) := by
  obtain ⟨hr, -⟩ | ⟨-, ⟨b, r, -, -, ⟨h, -⟩ | ⟨h, -⟩ | ⟨h, -⟩ | ⟨h, -⟩⟩ | ⟨-, -, hn, he⟩ | ⟨h, -, -⟩ | ⟨h, -, -⟩ | he⟩ :=
    edge_cases p s
  · simp [hrst] at hr
  case inr.inr.inl => exact ⟨_, he, wrRule_rx s, .inr (wrRule_out hn)⟩
  case inr.inr.inr.inr.inr => exact ⟨_, he, s.noteFault_rx, .inl s.noteFault_out⟩
  all_goals simp [hst] at h

/-- A clock edge without `rst` enters `ACK` only from a header with `len = 0` or by the packet's last write. -/
theorem fetchEdge_enters_ack {p : Ports} {s : State} (hrst : p.rst = false) (hst : s.st ≠ .ack) :
    ∃ t, (fetchEdge p s).outcome = .next t ∧
      (t.st = .ack → (s.st = .hdr ∧ t.len = 0) ∨
        (s.st = .wr ∧ s.j = s.len ∧ t.out = s.out ++ [.write s.wrAddr s.wrData])) := by
  obtain ⟨hr, -⟩ | ⟨-, ⟨b, r, -, -, ⟨-, he⟩ | ⟨h, he⟩ | ⟨-, he⟩ | ⟨h, he⟩⟩ | ⟨h, -, hn, he⟩ | ⟨h, -, -⟩ | ⟨-, -, he⟩ |
    he⟩ := edge_cases p s
  · simp [hrst] at hr
  · exact ⟨_, he, fun ha => absurd ha (seekRule_st_ne_ack b _)⟩
  · exact ⟨_, he, fun ha => .inl ⟨h, hdrRule_len_of_ack b h ha⟩⟩
  · exact ⟨_, he, fun ha => absurd ha (payRule_st_ne_ack b _)⟩
  · exact ⟨_, he, fun ha => absurd ha (chainRule_st_ne_ack b h)⟩
  · exact ⟨_, he, fun ha => .inr ⟨h, wrRule_count_of_ack hn ha, wrRule_out hn⟩⟩
  · exact absurd h hst
  · exact ⟨_, he, fun ha => by simp [restartRule] at ha⟩
  · exact ⟨_, he, fun ha => absurd (s.noteFault_st ▸ ha) hst⟩

/-- Settles O42: the edge is the next step; `fetchEdge_of_wr` and `fetchEdge_enters_ack` are its two clauses. -/
theorem acknowledgmentFollowsLastWrite : Obligations.AcknowledgmentFollowsLastWrite := by
  intro s t p rest hi hrst ht
  rw [step_of_edge hi] at ht
  refine ⟨fun hst => ?_, fun hst => ?_⟩
  · obtain ⟨u, hu, hheld⟩ := fetchEdge_of_wr (s := { s with inputs := rest }) hrst hst
    obtain rfl : u = t := by simpa [hu] using ht
    exact hheld
  · obtain ⟨u, hu, henter⟩ := fetchEdge_enters_ack (s := { s with inputs := rest }) hrst hst
    obtain rfl : u = t := by simpa [hu] using ht
    exact henter

end Sys2Proof.Machine
end

section
/-! A frame as the block takes it with every hold lifted (R90, R223): the magic marker, the length, the address, the
payload bytes of one word. Each part is one run of `serve` with its whole final state. -/

namespace Sys2Proof.Machine

/-! ### One step of serving -/

theorem serve_of_seek {s : State} {b : Byte} {r : List Byte} (hst : s.st = .seek) (hrx : s.rx = b :: r) :
    serve s = seekRule b { s with rx := r } := by
  simp [serve, hst, serveRx, hrx, State.dropRx]

theorem serve_of_hdr {s : State} {b : Byte} {r : List Byte} (hst : s.st = .hdr) (hrx : s.rx = b :: r) :
    serve s = hdrRule b { s with rx := r } := by
  simp [serve, hst, serveRx, hrx, State.dropRx]

theorem serve_of_pay {s : State} {b : Byte} {r : List Byte} (hst : s.st = .pay) (hrx : s.rx = b :: r) :
    serve s = payRule b { s with rx := r } := by
  simp [serve, hst, serveRx, hrx, State.dropRx]

theorem serve_of_chain {s : State} {b : Byte} {r : List Byte} (hst : s.st = .chain) (hrx : s.rx = b :: r) :
    serve s = chainRule b { s with rx := r } := by
  simp [serve, hst, serveRx, hrx, State.dropRx]

/-- A request the memory never accepts: serving only records the fault. -/
theorem serve_of_neverAccepted {s : State} (h : neverAccepted s = true) : serve s = s.noteFault := by
  have hst : s.st = .wr := by
    simp only [neverAccepted, Bool.and_eq_true, beq_iff_eq] at h
    exact h.1.1
  simp [serve, hst, wrRule_of_neverAccepted h]

/-- A recorded fault is not recorded again. -/
theorem record_record (s : State) (f : Fault) : (s.record f).record f = s.record f := by
  have hmem : f ∈ (s.record f).faults := by
    rw [record_eq]
    dsimp only
    split <;> simp_all
  rw [State.record, if_pos hmem]

theorem noteFault_noteFault (s : State) : s.noteFault.noteFault = s.noteFault := by
  obtain ⟨hst, h⟩ | ⟨hst, hn, h⟩ | ⟨-, -, h⟩ := noteFault_cases s
  · have h' := record_record s .illegalState
    rw [← h] at h'
    rw [State.noteFault, if_pos (by simpa using hst), h']
  · have h' := record_record s (.misalignedWrite s.wrAddr)
    rw [← h] at h'
    rw [State.noteFault, if_neg (by simp [hst]), if_pos (by simpa using hn), State.noteFault_wrAddr, h']
  · rw [h, h]

/-- A request the memory never accepts stays pending however long the block is served. -/
theorem serveN_succ_of_neverAccepted {s : State} (h : neverAccepted s = true) (n : Nat) :
    serveN (n + 1) s = s.noteFault := by
  rw [serveN, serve_of_neverAccepted h]
  refine serveN_induct (P := fun t => t = s.noteFault) ?_ n _ rfl
  rintro t rfl
  rw [serve_of_neverAccepted (by simpa using h), noteFault_noteFault]

/-! ### The magic marker -/

/-- Bytes that never complete the marker leave the block in `SEEK`, with the window shifted by them (R150). -/
theorem serveN_seek (bs rest : List Byte) {s : State} (hst : s.st = .seek) (hrx : s.rx = bs ++ rest)
    (hmiss : ∀ i, 0 < i → i ≤ bs.length → (bs.take i).foldl (shiftIn s.cfg.endian) s.win ≠ magic) :
    serveN bs.length s = { s with win := bs.foldl (shiftIn s.cfg.endian) s.win, rx := rest } := by
  induction bs generalizing s with
  | nil => obtain rfl : s.rx = rest := hrx; simp [serveN]
  | cons b bs ih =>
    have hb : shiftIn s.cfg.endian s.win b ≠ magic := by simpa using hmiss 1 (by simp) (by simp)
    have hserve : serve s = { s with win := shiftIn s.cfg.endian s.win b, rx := bs ++ rest } := by
      rw [serve_of_seek hst hrx]
      obtain ⟨hm, -⟩ | ⟨-, he⟩ := seekRule_cases b { s with rx := bs ++ rest }
      · exact absurd hm hb
      · exact he.trans (by rw [← hst])
    rw [List.length_cons, serveN, hserve, ih]
    · rfl
    · exact hst
    · rfl
    · intro i _ hi
      simpa using hmiss (i + 1) (by simp) (by simpa using hi)

/-- The bytes of a chain check before its fourth are gathered in the window (R154). -/
theorem serveN_chain (bs rest : List Byte) {s : State} (hst : s.st = .chain) (hrx : s.rx = bs ++ rest)
    (hk : s.k.toNat + bs.length ≤ 3) :
    serveN bs.length s = { s with
      win := bs.foldl (shiftIn s.cfg.endian) s.win, k := s.k + BitVec.ofNat 4 bs.length, rx := rest } := by
  induction bs generalizing s with
  | nil => obtain rfl : s.rx = rest := hrx; simp [serveN]
  | cons b bs ih =>
    rw [List.length_cons] at hk
    have hserve : serve s =
        { s with win := shiftIn s.cfg.endian s.win b, k := s.k + 1, rx := bs ++ rest } := by
      rw [serve_of_chain hst hrx]
      obtain ⟨-, he⟩ | ⟨h3, -⟩ | ⟨h3, -⟩ := chainRule_cases b { s with rx := bs ++ rest }
      · exact he
      all_goals have : 3 ≤ s.k.toNat := h3; omega
    have hk1 : (s.k + 1).toNat = s.k.toNat + 1 := by bv_omega
    have hcount : s.k + 1 + BitVec.ofNat 4 bs.length = s.k + BitVec.ofNat 4 (bs.length + 1) := by
      rw [BitVec.ofNat_add, BitVec.add_assoc, BitVec.add_comm (BitVec.ofNat 4 bs.length)]; rfl
    rw [List.length_cons, serveN, hserve, ih]
    · simp only [hcount, List.foldl_cons]
    · exact hst
    · rfl
    · simp only [hk1]; omega

/-- The marker is three bytes, within which no window that was empty holds it, and the byte that completes it. -/
theorem marker_split (e : Endian) :
    ∃ pre b, wire e 4 magic = pre ++ [b] ∧ pre.length = 3 ∧
      ∀ i, 0 < i → i ≤ pre.length → (pre.take i).foldl (shiftIn e) 0 ≠ magic := by
  refine ⟨(wire e 4 magic).take 3, byteAt magic (sh e 3 4), ?_, ?_, ?_⟩
  · cases e <;> rfl
  · cases e <;> rfl
  · intro i _ hi
    have h4 : i < 4 := by simp at hi; omega
    cases e <;> interval_cases i <;> decide

/-- Four bytes shift everything older out of the window (R156), so the marker fills it. -/
theorem marker_fills_window (e : Endian) (w : Word32) : (wire e 4 magic).foldl (shiftIn e) w = magic := by
  cases e with
  | le =>
    have hw : wire .le 4 magic = [0xAA, 0x55, 0xAA, 0x55] := rfl
    have hout : w >>> 32 = 0 := BitVec.ushiftRight_eq_zero (by decide)
    rw [hw]
    simp [shiftIn, BitVec.ushiftRight_or_distrib, ← BitVec.shiftRight_add, hout, magic]
  | be =>
    have hw : wire .be 4 magic = [0x55, 0xAA, 0x55, 0xAA] := rfl
    have hout : w <<< 32 = 0 := BitVec.shiftLeft_eq_zero (by decide)
    rw [hw]
    simp [shiftIn, BitVec.shiftLeft_or_distrib, ← BitVec.shiftLeft_add, hout, magic]

/-- From the start of a packet the marker leads into the header. -/
theorem serveN_marker {s : State} {rest : List Byte} (hstart : s.st = .seek ∧ s.win = 0 ∨ s.st = .chain ∧ s.k = 0)
    (hrx : s.rx = wire s.cfg.endian 4 magic ++ rest) :
    serveN 4 s = { s with win := magic, rx := rest }.enterHdr := by
  obtain ⟨pre, b, hsplit, hlen, hmiss⟩ := marker_split s.cfg.endian
  have hfill : shiftIn s.cfg.endian (pre.foldl (shiftIn s.cfg.endian) s.win) b = magic := by
    simpa [hsplit] using marker_fills_window s.cfg.endian s.win
  have hrx' : s.rx = pre ++ b :: rest := by simpa [hsplit] using hrx
  have hsum : serveN 4 s = serve (serveN pre.length s) := by rw [hlen]; rfl
  rw [hsum]
  obtain ⟨hst, hwin⟩ | ⟨hst, hk⟩ := hstart
  · rw [serveN_seek pre (b :: rest) hst hrx' (hwin ▸ hmiss), serve_of_seek (b := b) (r := rest) (by exact hst) rfl]
    obtain ⟨-, he⟩ | ⟨hne, -⟩ := seekRule_cases b
      { s with win := pre.foldl (shiftIn s.cfg.endian) s.win, rx := rest }
    · exact he
    · exact absurd hfill hne
  · rw [serveN_chain pre (b :: rest) hst hrx' (by simp [hk, hlen]),
      serve_of_chain (b := b) (r := rest) (by exact hst) rfl]
    obtain ⟨hlt, -⟩ | ⟨-, -, he⟩ | ⟨-, hne, -⟩ := chainRule_cases b
      { s with win := pre.foldl (shiftIn s.cfg.endian) s.win, k := s.k + BitVec.ofNat 4 pre.length, rx := rest }
    · simp [hk, hlen] at hlt
    · exact he
    · exact absurd hfill hne

/-! ### The header -/

/-- A byte of the length field (R152). -/
theorem hdrRule_length (b : Byte) {s : State} (hk : s.k.toNat < s.cfg.W) :
    hdrRule b s =
      { s with len := s.len ||| lane s.cfg s.k.toNat b, crc := crc8 s.crc b, k := s.k + 1 } := by
  have hlast : s.k.toNat ≠ 2 * s.cfg.W - 1 := by omega
  have hfield : hdrField b (s.driveCrc .upd b) = _ := if_pos hk
  simp only [hdrRule, hlast, if_false, hfield]
  rfl

/-- A byte of the address field before the last (R152). -/
theorem hdrRule_address (b : Byte) {s : State} (hk : s.cfg.W ≤ s.k.toNat) (hlast : s.k.toNat ≠ 2 * s.cfg.W - 1) :
    hdrRule b s =
      { s with addr := s.addr ||| lane s.cfg (s.k.toNat - s.cfg.W) b, crc := crc8 s.crc b, k := s.k + 1 } := by
  have hfield : hdrField b (s.driveCrc .upd b) = _ := if_neg (Nat.not_lt.mpr hk)
  simp only [hdrRule, hlast, if_false, hfield]
  rfl

/-- The last byte of the header (R152, R153). -/
theorem hdrRule_last (b : Byte) {s : State} (hlast : s.k.toNat = 2 * s.cfg.W - 1) :
    hdrRule b s =
      State.hdrDone { s with addr := s.addr ||| lane s.cfg (s.cfg.W - 1) b, crc := crc8 s.crc b } := by
  have hW := s.cfg.W_pos
  have hpos : s.k.toNat - s.cfg.W = s.cfg.W - 1 := by omega
  have hfield : hdrField b (s.driveCrc .upd b) = _ := if_neg (Nat.not_lt.mpr (show s.cfg.W ≤ s.k.toNat by omega))
  simp only [hdrRule, hlast, if_true, hfield, State.driveCrc_k, State.driveCrc_cfg, ← hpos]
  rfl

/-- The byte counter holds every position of a header. -/
theorem ofNat_toNat_of_lt_header {c : Cfg} {p : Nat} (hp : p < 2 * c.W) : (BitVec.ofNat 4 p).toNat = p := by
  have h16 : p < 16 := by obtain hW | hW := c.W_cases <;> omega
  exact Nat.mod_eq_of_lt h16

/-- The bytes of the length field gather in `len` (R152). -/
theorem serveN_length (bs rest : List Byte) (p : Nat) {s : State} (hst : s.st = .hdr) (hk : s.k = BitVec.ofNat 4 p)
    (hrx : s.rx = bs ++ rest) (hp : p + bs.length ≤ s.cfg.W) :
    serveN bs.length s = { s with
      len := s.len ||| assemble s.cfg.endian s.cfg.W p bs, k := BitVec.ofNat 4 (p + bs.length),
      crc := crcBytes s.crc bs, rx := rest } := by
  induction bs generalizing s p with
  | nil => obtain rfl : s.rx = rest := hrx; simp [serveN, assemble, crcBytes, ← hk]
  | cons b bs ih =>
    rw [List.length_cons] at hp
    have hkp : s.k.toNat = p := by rw [hk]; exact ofNat_toNat_of_lt_header (c := s.cfg) (by omega)
    have hserve : serve s = { s with
        len := s.len ||| b.setWidth 64 <<< sh s.cfg.endian p s.cfg.W, k := BitVec.ofNat 4 (p + 1),
        crc := crc8 s.crc b, rx := bs ++ rest } := by
      rw [serve_of_hdr hst hrx, hdrRule_length b (by dsimp only; omega), ← lane_eq_shiftLeft (by omega),
        BitVec.ofNat_add, ← hk, hkp]
      rfl
    rw [List.length_cons, serveN, hserve, ih (p + 1)]
    · simp [assemble, crcBytes, BitVec.or_assoc, Nat.add_assoc, Nat.add_comm 1]
    · exact hst
    · rfl
    · rfl
    · dsimp only; omega

/-- `HDR_DONE` writes `st` and the byte counter whatever they were. -/
theorem hdrDone_congr {s t : State} (h : { s with st := t.st, k := t.k } = t) : s.hdrDone = t.hdrDone := by
  rw [← h]
  unfold State.hdrDone
  split <;> rfl

/-- The bytes of the address field gather in `addr`, and the last one ends the header (R152, R153). -/
theorem serveN_address (bs rest : List Byte) (p : Nat) {s : State} (hst : s.st = .hdr)
    (hk : s.k = BitVec.ofNat 4 (s.cfg.W + p)) (hrx : s.rx = bs ++ rest) (hp : p + bs.length = s.cfg.W)
    (hne : bs ≠ []) :
    serveN bs.length s = State.hdrDone { s with
      addr := s.addr ||| assemble s.cfg.endian s.cfg.W p bs, crc := crcBytes s.crc bs, rx := rest } := by
  induction bs generalizing s p with
  | nil => exact absurd rfl hne
  | cons b bs ih =>
    rw [List.length_cons] at hp
    have hkp : s.k.toNat = s.cfg.W + p := by rw [hk]; exact ofNat_toNat_of_lt_header (c := s.cfg) (by omega)
    have hlane : lane s.cfg p b = _ := lane_eq_shiftLeft (by omega) b
    rw [List.length_cons, serveN, serve_of_hdr hst hrx]
    cases bs with
    | nil =>
      have hpW : s.cfg.W - 1 = p := by simp at hp; omega
      rw [hdrRule_last b (by simp at hp; dsimp only; omega)]
      simp [serveN, assemble, crcBytes, hpW, hlane]
    | cons b' bs =>
      rw [List.length_cons] at hp
      have hpos : s.k.toNat - s.cfg.W = p := by omega
      rw [hdrRule_address b (by dsimp only; omega) (by dsimp only; omega), ih (p + 1)]
      · exact hdrDone_congr (by simp [hpos, hlane, assemble, crcBytes, BitVec.or_assoc])
      · exact hst
      · simp only [hk, BitVec.ofNat_add]; rw [BitVec.add_assoc]; rfl
      · rfl
      · rw [List.length_cons]; dsimp only; omega
      · simp

/-- The two fields of a header, from its first byte on (R90, R92, R153). -/
theorem serveN_header {l a rest : List Byte} {s : State} (hst : s.st = .hdr) (hk : s.k = 0) (hlen : s.len = 0)
    (haddr : s.addr = 0) (hl : l.length = s.cfg.W) (ha : a.length = s.cfg.W) (hrx : s.rx = l ++ (a ++ rest)) :
    serveN (s.cfg.W + s.cfg.W) s = State.hdrDone { s with
      len := assemble s.cfg.endian s.cfg.W 0 l, addr := assemble s.cfg.endian s.cfg.W 0 a,
      crc := crcBytes s.crc (l ++ a), rx := rest } := by
  have hW := s.cfg.W_pos
  have hsum : serveN (s.cfg.W + s.cfg.W) s = serveN a.length (serveN l.length s) := by rw [serveN_add, hl, ha]
  rw [hsum, serveN_length l (a ++ rest) 0 hst hk hrx (by omega), serveN_address a rest 0]
  · exact hdrDone_congr (by simp [hlen, haddr, crcBytes_append])
  · exact hst
  · dsimp only; congr 1; omega
  · rfl
  · dsimp only; omega
  · rintro rfl; simp at ha; omega

/-! ### The bytes of a word -/

/-- The next count of payload bytes, below the length (R180). -/
theorem fit_add_one {c : Cfg} {j len : Word} (hj : j.toNat < len.toNat) (hlen : Fits c len) :
    fit c (j + 1) = BitVec.ofNat 64 (j.toNat + 1) := by
  rw [← fit_add_one_toNat hj hlen, BitVec.ofNat_toNat, BitVec.setWidth_eq]

/-- A payload byte that ends its word or the packet (R181, R182). -/
theorem payRule_issue (b : Byte) {s : State} (h : payPos s = s.cfg.W - 1 ∨ fit s.cfg (s.j + 1) = s.len) :
    payRule b s = State.issueWrite
      { s with crc := crc8 s.crc b, j := fit s.cfg (s.j + 1) } (payAddr s) (payWord b s) := by
  obtain ⟨t, rfl, ⟨-, he⟩ | ⟨hp, hj, -⟩⟩ := payRule_cases b s
  · exact he
  · exact absurd h (not_or.mpr ⟨hp, hj⟩)

/-- The registers after a payload byte that only joins its word (R180). -/
def State.gatherByte (b : Byte) (s : State) : State :=
  { s with crc := crc8 s.crc b, j := fit s.cfg (s.j + 1), acc := payWord b s, st := .pay }

/-- A payload byte before the end of its word and of the packet (R180). -/
theorem payRule_gather (b : Byte) {s : State} (hp : payPos s ≠ s.cfg.W - 1) (hj : fit s.cfg (s.j + 1) ≠ s.len) :
    payRule b s = s.gatherByte b := by
  obtain ⟨t, rfl, ⟨h, -⟩ | ⟨-, -, he⟩⟩ := payRule_cases b s
  · exact absurd h (not_or.mpr ⟨hp, hj⟩)
  · exact he

/-- The bytes of one word belong to one address (R180). -/
theorem payAddr_eq_of_succ {s t : State} (haddr : t.addr = s.addr) (hj : t.j.toNat = s.j.toNat + 1)
    (hp : payPos t = payPos s + 1) : payAddr t = payAddr s := by
  have hjw : t.j = s.j + 1 := by bv_omega
  have hpw : BitVec.ofNat 64 (payPos t) = BitVec.ofNat 64 (payPos s) + 1 := by rw [hp, BitVec.ofNat_add]; rfl
  rw [payAddr, payAddr, haddr, hjw, hpw, add_sub_add_right_eq_sub]

/-- The payload bytes up to the end of a word or of the packet leave that word as the pending write (R180, R181,
R182). -/
theorem serveN_word (bs rest : List Byte) {s : State} (hst : s.st = .pay) (hrx : s.rx = bs ++ rest) (hne : bs ≠ [])
    (hfit : Fits s.cfg s.len) (hword : payPos s + bs.length ≤ s.cfg.W) (hlen : s.j.toNat + bs.length ≤ s.len.toNat)
    (hend : payPos s + bs.length = s.cfg.W ∨ s.j.toNat + bs.length = s.len.toNat) :
    serveN bs.length s = State.issueWrite
      { s with j := BitVec.ofNat 64 (s.j.toNat + bs.length), crc := crcBytes s.crc bs, rx := rest }
      (payAddr s) (s.acc ||| assemble s.cfg.endian s.cfg.W (payPos s) bs) := by
  induction bs generalizing s with
  | nil => exact absurd rfl hne
  | cons b bs ih =>
    rw [List.length_cons] at hword hlen hend
    have hj : fit s.cfg (s.j + 1) = BitVec.ofNat 64 (s.j.toNat + 1) := fit_add_one (by omega) hfit
    have hjn : (fit s.cfg (s.j + 1)).toNat = s.j.toNat + 1 := fit_add_one_toNat (by omega) hfit
    have hgather : payWord b s = s.acc ||| b.setWidth 64 <<< sh s.cfg.endian (payPos s) s.cfg.W := by
      rw [payWord, lane_eq_shiftLeft (by omega)]
    rw [List.length_cons, serveN]
    cases bs with
    | nil =>
      have hlast : payPos s = s.cfg.W - 1 ∨ fit s.cfg (s.j + 1) = s.len :=
        hend.imp (fun h => by simp at h; omega) fun h => BitVec.eq_of_toNat_eq (hjn.trans h)
      have hserve : serve s = State.issueWrite
          { s with crc := crc8 s.crc b, j := fit s.cfg (s.j + 1), rx := rest } (payAddr s) (payWord b s) :=
        (serve_of_pay hst hrx).trans (payRule_issue b hlast)
      rw [hserve, hj, hgather]
      simp [serveN, assemble, crcBytes]
    | cons b' bs =>
      rw [List.length_cons] at hword hlen hend
      have hp : payPos s ≠ s.cfg.W - 1 := by omega
      have hne' : fit s.cfg (s.j + 1) ≠ s.len := fun h => by rw [h] at hjn; omega
      obtain ⟨t, ht⟩ : ∃ t, t = State.gatherByte b { s with rx := b' :: bs ++ rest } := ⟨_, rfl⟩
      have hserve : serve s = t := ht ▸ (serve_of_pay hst hrx).trans (payRule_gather b hp hne')
      have htj : t.j.toNat = s.j.toNat + 1 := ht ▸ hjn
      have hpos : payPos t = payPos s + 1 := by rw [← payPos_succ hp, ← htj, ht]; rfl
      have haddr : payAddr t = payAddr s := payAddr_eq_of_succ (ht ▸ rfl) htj hpos
      have hta : t.acc = s.acc ||| b.setWidth 64 <<< sh s.cfg.endian (payPos s) s.cfg.W := ht ▸ hgather
      have htc : t.cfg = s.cfg := ht ▸ rfl
      have htl : t.len = s.len := ht ▸ rfl
      rw [hserve, ih (s := t) (ht ▸ rfl) (ht ▸ rfl) (by simp) (ht ▸ hfit)
        (by rw [hpos, htc, List.length_cons]; omega)
        (by rw [htj, htl, List.length_cons]; omega) (by rw [hpos, htj, htc, htl, List.length_cons]; omega),
        haddr, hpos, htj, hta, ht]
      simp [State.gatherByte, State.issueWrite, assemble, crcBytes, BitVec.or_assoc, Nat.add_assoc, Nat.add_comm 1]

/-! ### A packet up to its first write -/

/-- From the start of a packet, its marker and header fill `len` and `addr` and end the header (R90, R92, R153). -/
theorem serveN_frameHeader {s : State} {len addr : Word} {rest : List Byte}
    (hstart : s.st = .seek ∧ s.win = 0 ∨ s.st = .chain ∧ s.k = 0) (hrx : s.rx = frameBytes s.cfg len addr rest)
    (hlen : Fits s.cfg len) (haddr : Fits s.cfg addr) :
    serveN (4 + (s.cfg.W + s.cfg.W)) s = State.hdrDone { s with
      win := magic, len := len, addr := addr, rx := rest,
      crc := crcBytes (crcMagic s.cfg.endian) (wire s.cfg.endian s.cfg.W len ++ wire s.cfg.endian s.cfg.W addr) } := by
  have hW : s.cfg.W ≤ 8 := by obtain h | h := s.cfg.W_cases <;> omega
  have hframe : s.rx = wire s.cfg.endian 4 magic ++
      (wire s.cfg.endian s.cfg.W len ++ (wire s.cfg.endian s.cfg.W addr ++ rest)) := by
    simpa [frameBytes] using hrx
  obtain ⟨t, ht⟩ : ∃ t, t = State.enterHdr { s with
    win := magic, rx := wire s.cfg.endian s.cfg.W len ++ (wire s.cfg.endian s.cfg.W addr ++ rest) } := ⟨_, rfl⟩
  have htc : t.cfg = s.cfg := ht ▸ rfl
  have hheader := serveN_header (s := t) (l := wire t.cfg.endian t.cfg.W len) (a := wire t.cfg.endian t.cfg.W addr)
    (rest := rest) (ht ▸ rfl) (ht ▸ rfl) (ht ▸ rfl) (ht ▸ rfl) (wire_length _ _ _)
    (wire_length _ _ _) (ht ▸ rfl)
  rw [htc, assemble_wire hW hlen, assemble_wire hW haddr] at hheader
  rw [serveN_add, serveN_marker hstart hframe, ← ht, hheader, ht]
  exact hdrDone_congr rfl

/-- The state of a DATA packet, begun in `s`, whose first write stands pending: `chunk` is its first word's bytes, and
the bytes `rest` are with the transport. -/
def State.atFirstWrite (s : State) (len addr : Word) (chunk rest : List Byte) : State :=
  State.issueWrite
    { s with
      win := magic, k := 0, len := len, addr := addr, j := BitVec.ofNat 64 chunk.length, rx := rest,
      crc := crcBytes (crcMagic s.cfg.endian)
        (wire s.cfg.endian s.cfg.W len ++ wire s.cfg.endian s.cfg.W addr ++ chunk) }
    addr (assemble s.cfg.endian s.cfg.W 0 chunk)

/-- From the start of a packet, the frame of a DATA packet up to the end of its first word makes the first write
pending (R90, R94, R180). -/
theorem serveN_firstWrite {s : State} {len addr : Word} {chunk rest : List Byte}
    (hstart : s.st = .seek ∧ s.win = 0 ∨ s.st = .chain ∧ s.k = 0)
    (hrx : s.rx = frameBytes s.cfg len addr (chunk ++ rest)) (hlen : Fits s.cfg len) (haddr : Fits s.cfg addr)
    (hne : chunk ≠ []) (hword : chunk.length ≤ s.cfg.W) (hle : chunk.length ≤ len.toNat)
    (hend : chunk.length = s.cfg.W ∨ chunk.length = len.toNat) :
    serveN (4 + (s.cfg.W + s.cfg.W) + chunk.length) s = s.atFirstWrite len addr chunk rest := by
  have hpos : 0 < chunk.length := List.length_pos_iff.mpr hne
  have hlen0 : len ≠ 0 := by bv_omega
  obtain ⟨t, ht⟩ : ∃ t : State, t = { s with
    win := magic, k := 0, len := len, addr := addr, j := 0, acc := 0, st := .pay, rx := chunk ++ rest,
    crc := crcBytes (crcMagic s.cfg.endian) (wire s.cfg.endian s.cfg.W len ++ wire s.cfg.endian s.cfg.W addr) } :=
    ⟨_, rfl⟩
  have hheader : serveN (4 + (s.cfg.W + s.cfg.W)) s = t := by
    rw [serveN_frameHeader hstart hrx hlen haddr, State.hdrDone, if_neg hlen0, ht]
  have htp : payPos t = 0 := by rw [ht]; exact Nat.zero_mod _
  have htj : t.j = 0 := ht ▸ rfl
  have hta : payAddr t = addr := by rw [payAddr, htp, htj, ht]; simp
  rw [serveN_add, hheader, serveN_word chunk rest (ht ▸ rfl) (ht ▸ rfl) hne (ht ▸ hlen), hta, htp, htj, ht]
  · simp [State.atFirstWrite, State.issueWrite, crcBytes_append]
  · rw [htp, ht]; simpa using hword
  · rw [htj, ht]; simpa using hle
  · rw [htp, htj, ht]; simpa using hend

/-! ### A DATA packet the memory refuses -/

/-- A first write that is misaligned under `fault` is never accepted (R66). -/
theorem neverAccepted_atFirstWrite {s : State} {len addr : Word} (chunk rest : List Byte) (haddr : Fits s.cfg addr)
    (hmis : addr.toNat % s.cfg.W ≠ 0) (hfault : s.cfg.misaligned = .fault) :
    neverAccepted (s.atFirstWrite len addr chunk rest) = true := by
  simp [neverAccepted, State.atFirstWrite, fit_of_fits haddr, hfault, hmis]

/-- The frame of such a packet is served up to its first write; all serving after it only records the fault. -/
theorem sendBytes_misaligned {s : State} {len addr : Word} {payload : List Byte}
    (hwf : WellFormed s.cfg (.pktData len addr payload) = true) (hstart : AtPacketStart s)
    (hmis : addr.toNat % s.cfg.W ≠ 0) (hfault : s.cfg.misaligned = .fault) :
    sendBytes (frameBytes s.cfg len addr payload) s =
      (s.atFirstWrite len addr (payload.take s.cfg.W) (payload.drop s.cfg.W)).noteFault := by
  obtain ⟨hbegin, hrx⟩ := hstart
  simp only [WellFormed, Bool.and_eq_true, decide_eq_true_eq] at hwf
  obtain ⟨⟨⟨hlen0, hpayload⟩, hlen⟩, haddr⟩ := hwf
  have hpos : 0 < payload.length := by bv_omega
  have hW := s.cfg.W_pos
  have hchunk : (payload.take s.cfg.W).length = min s.cfg.W payload.length := List.length_take
  have hne : payload.take s.cfg.W ≠ [] := List.length_pos_iff.mp (by omega)
  have hfirst : serveN (4 + (s.cfg.W + s.cfg.W) + (payload.take s.cfg.W).length)
      { s with rx := s.rx ++ frameBytes s.cfg len addr payload } =
      s.atFirstWrite len addr (payload.take s.cfg.W) (payload.drop s.cfg.W) :=
    serveN_firstWrite (s := { s with rx := s.rx ++ frameBytes s.cfg len addr payload }) hbegin
      (by rw [List.take_append_drop, hrx]; rfl) hlen haddr hne (by rw [hchunk]; exact min_le_left _ _) (by omega)
      (by rw [hchunk, ← hpayload]; exact min_choice _ _)
  obtain ⟨n, hn⟩ : ∃ n, serveSteps (s.rx.length + (frameBytes s.cfg len addr payload).length) =
      4 + (s.cfg.W + s.cfg.W) + (payload.take s.cfg.W).length + (n + 1) := by
    have hsize : (frameBytes s.cfg len addr payload).length = 4 + s.cfg.W + s.cfg.W + payload.length := by
      simp [frameBytes, Nat.add_assoc]
    exact Nat.exists_eq_add_of_lt (by simp only [serveSteps, hsize, hchunk]; omega)
  rw [sendBytes, hn, serveN_add, hfirst,
    serveN_succ_of_neverAccepted (neverAccepted_atFirstWrite _ _ haddr hmis hfault)]

/-- Settles O24: what the statement says is read off the state whose first write stands pending, its fault recorded. -/
theorem misalignedDataPacketIsNeverAcknowledged : Obligations.MisalignedDataPacketIsNeverAcknowledged := by
  intro s len addr payload hwf hstart hmis hfault
  have haddr : Fits s.cfg addr := by simp [WellFormed] at hwf; exact hwf.2
  have hwrAddr := fit_of_fits haddr
  have hrecord := noteFault_records (neverAccepted_atFirstWrite (len := len) (payload.take s.cfg.W)
    (payload.drop s.cfg.W) haddr hmis hfault)
  refine ⟨_, congrArg Host.Outcome.next (sendBytes_misaligned hwf hstart hmis hfault), ?_⟩
  simpa [State.atFirstWrite, hwrAddr, writeValue] using hrecord

end Sys2Proof.Machine
end

section
/-! The decoder and the encoder of each format (R90 to R94, R98, R99). A frame is read field by field, and each reading is
an `↔`: the bytes read are the wire bytes of the field. So both directions of the round trip are one lemma. -/

namespace Sys2Proof.Machine

/-! ### Frames -/

/-- A sequence of two readings answers when both do. -/
theorem except_bind_eq_ok {ε α β : Type} {x : Except ε α} {f : α → Except ε β} {y : β} :
    (x >>= f) = .ok y ↔ ∃ a, x = .ok a ∧ f a = .ok y := by
  cases x with
  | error e => simp [bind, Except.bind]
  | ok a => simp [bind, Except.bind]

theorem takeBytes_eq_ok {n : Nat} {bs xs ys : List Byte} :
    takeBytes n bs = .ok (xs, ys) ↔ xs.length = n ∧ bs = xs ++ ys := by
  constructor
  · intro h
    unfold takeBytes at h
    split at h
    · next hn =>
      obtain ⟨rfl, rfl⟩ : bs.take n = xs ∧ bs.drop n = ys := by simpa using h
      exact ⟨List.length_take_of_le hn, (List.take_append_drop n bs).symm⟩
    · simp at h
  · rintro ⟨hn, rfl⟩
    exact takeBytes_append ys hn

/-- The bytes of a field are the wire bytes of exactly one value that fits the target word (R92). -/
theorem assemble_eq_iff_wire {c : Cfg} {bs : List Byte} {v : Word} :
    (bs.length = c.W ∧ assemble c.endian c.W 0 bs = v) ↔ Fits c v ∧ bs = wire c.endian c.W v := by
  have hW : c.W ≤ 8 := by obtain h | h := c.W_cases <;> omega
  constructor
  · rintro ⟨hlen, rfl⟩
    exact ⟨assemble_toNat_lt hW bs 0 (by omega), (wire_assemble hW hlen).symm⟩
  · rintro ⟨hv, rfl⟩
    exact ⟨wire_length _ _ _, assemble_wire hW hv⟩

/-- Bytes hold a header exactly when they start with the marker and the wire bytes of its two fields. -/
theorem decodeHeader_eq_ok {c : Cfg} {bs rest : List Byte} {len addr : Word} :
    decodeHeader c bs = .ok (len, addr, rest) ↔
      Fits c len ∧ Fits c addr ∧
        bs = wire c.endian 4 magic ++ (wire c.endian c.W len ++ (wire c.endian c.W addr ++ rest)) := by
  constructor
  · intro h
    obtain ⟨⟨m, r1⟩, hm, hfields⟩ := except_bind_eq_ok.mp h
    obtain ⟨-, rfl⟩ := takeBytes_eq_ok.mp hm
    dsimp only at hfields
    split at hfields
    · next hmagic =>
      obtain ⟨⟨l, r2⟩, hl, haddrField⟩ := except_bind_eq_ok.mp hfields
      obtain ⟨⟨a, r3⟩, ha, hread⟩ := except_bind_eq_ok.mp haddrField
      obtain ⟨hll, rfl⟩ := takeBytes_eq_ok.mp hl
      obtain ⟨hal, rfl⟩ := takeBytes_eq_ok.mp ha
      obtain ⟨hlen, haddr, rfl⟩ : assemble c.endian c.W 0 l = len ∧ assemble c.endian c.W 0 a = addr ∧ r3 = rest := by
        simpa [pure, Except.pure] using hread
      obtain ⟨hfl, hwl⟩ := assemble_eq_iff_wire.mp ⟨hll, hlen⟩
      obtain ⟨hfa, hwa⟩ := assemble_eq_iff_wire.mp ⟨hal, haddr⟩
      exact ⟨hfl, hfa, by rw [hmagic, hwl, hwa]⟩
    · simp at hfields
  · rintro ⟨hfl, hfa, rfl⟩
    obtain ⟨hll, hlen⟩ := assemble_eq_iff_wire.mpr ⟨hfl, rfl⟩
    obtain ⟨hal, haddr⟩ := assemble_eq_iff_wire.mpr ⟨hfa, rfl⟩
    simp [decodeHeader, takeBytes_append, bind, Except.bind, pure, Except.pure, hlen, haddr]

@[simp] theorem wellFormed_pktData {c : Cfg} {len addr : Word} {payload : List Byte} :
    WellFormed c (.pktData len addr payload) = true ↔
      len ≠ 0 ∧ payload.length = len.toNat ∧ Fits c len ∧ Fits c addr := by
  simp [WellFormed, and_assoc]

@[simp] theorem wellFormed_pktEntry {c : Cfg} {addr : Word} : WellFormed c (.pktEntry addr) = true ↔ Fits c addr := by
  simp [WellFormed]

theorem frameBytes_append (c : Cfg) (len addr : Word) (payload rest : List Byte) :
    frameBytes c len addr payload ++ rest =
      wire c.endian 4 magic ++ (wire c.endian c.W len ++ (wire c.endian c.W addr ++ (payload ++ rest))) := by
  simp [frameBytes]

/-- Bytes decode as a packet exactly when they are the encoding of that packet, a well-formed one, and what follows. -/
theorem decodeFrame_eq_ok {c : Cfg} {bs rest : List Byte} {i : Instr} :
    decodeFrame c bs = .ok (i, rest) ↔ WellFormed c i = true ∧ i.fmt = .frame ∧ bs = encode c i ++ rest := by
  constructor
  · intro h
    obtain ⟨⟨len, addr, r⟩, hheader, hkind⟩ := except_bind_eq_ok.mp h
    obtain ⟨hfl, hfa, rfl⟩ := decodeHeader_eq_ok.mp hheader
    dsimp only at hkind
    split at hkind
    · next hlen =>
      obtain ⟨rfl, rfl⟩ : .pktEntry addr = i ∧ r = rest := by simpa [pure, Except.pure] using hkind
      exact ⟨wellFormed_pktEntry.mpr hfa, rfl, by rw [encode, frameBytes_append, hlen, List.nil_append]⟩
    · next hlen =>
      obtain ⟨⟨payload, r'⟩, hpayload, hread⟩ := except_bind_eq_ok.mp hkind
      obtain ⟨hpl, rfl⟩ := takeBytes_eq_ok.mp hpayload
      obtain ⟨rfl, rfl⟩ : .pktData len addr payload = i ∧ r' = rest := by simpa [pure, Except.pure] using hread
      exact ⟨wellFormed_pktData.mpr ⟨hlen, hpl, hfl, hfa⟩, rfl, by rw [encode, frameBytes_append]⟩
  · rintro ⟨hwf, hfmt, rfl⟩
    unfold decodeFrame
    cases i with
    | pktData len addr payload =>
      obtain ⟨hlen, hpl, hfl, hfa⟩ := wellFormed_pktData.mp hwf
      refine except_bind_eq_ok.mpr ⟨_, decodeHeader_eq_ok.mpr ⟨hfl, hfa, frameBytes_append ..⟩, ?_⟩
      dsimp only
      rw [if_neg hlen, takeBytes_append rest hpl]
      rfl
    | pktEntry addr =>
      have hfa := wellFormed_pktEntry.mp hwf
      exact except_bind_eq_ok.mpr ⟨_, decodeHeader_eq_ok.mpr ⟨fits_zero c, hfa, frameBytes_append ..⟩, rfl⟩
    | _ => nomatch hfmt

/-! ### Selector and operation-code words -/

/-- The word of an RX step is its selector and the byte taken. -/
theorem decodeStepBytes_rx (st : Fsm) (b : Byte) (rest : List Byte) :
    decodeStepBytes (stepByte st .rx :: b :: rest) = (decodeStep (selector st .rx) b).map fun i => (i, rest) := by
  cases st <;> rfl

/-- The word of any other step is its selector alone. -/
theorem decodeStepBytes_of_ne_rx {ev : Event} (hev : ev ≠ .rx) (st : Fsm) (rest : List Byte) :
    decodeStepBytes (stepByte st ev :: rest) = (decodeStep (selector st ev) 0).map fun i => (i, rest) := by
  cases ev with
  | rx => exact absurd rfl hev
  | _ => cases st <;> rfl

theorem decodeCrcBytes_crcOpByte (op : CrcOp) (din : Byte) (rest : List Byte) :
    decodeCrcBytes (crcOpByte op :: din :: rest) = .ok (decodeCrcOp op din, rest) := by
  cases op <;> rfl

/-! ### The obligations -/

theorem decode_encode {c : Cfg} {i : Instr} (rest : List Byte) (h : WellFormed c i = true) :
    decode i.fmt c (encode c i ++ rest) = .ok (i, rest) := by
  cases i with
  | pktData len addr payload => exact decodeFrame_eq_ok.mpr ⟨h, rfl, rfl⟩
  | pktEntry addr => exact decodeFrame_eq_ok.mpr ⟨h, rfl, rfl⟩
  | seekRx b => exact decodeStepBytes_rx .seek b rest
  | hdrRx b => exact decodeStepBytes_rx .hdr b rest
  | payRx b => exact decodeStepBytes_rx .pay b rest
  | chainRx b => exact decodeStepBytes_rx .chain b rest
  | wrMem => exact decodeStepBytes_of_ne_rx (ev := .mem) (by decide) .wr rest
  | ackTx => exact decodeStepBytes_of_ne_rx (ev := .tx) (by decide) .ack rest
  | doneRestart => exact decodeStepBytes_of_ne_rx (ev := .restart) (by decide) .done rest
  | crcHold => exact decodeCrcBytes_crcOpByte .hold 0 rest
  | crcInit => exact decodeCrcBytes_crcOpByte .init 0 rest
  | crcLoadm => exact decodeCrcBytes_crcOpByte .loadm 0 rest
  | crcUpd din => exact decodeCrcBytes_crcOpByte .upd din rest

/-- Settles O46: a frame by `decodeFrame_eq_ok`, the other words by the selector or operation code they hold. -/
theorem decodeOfEncodeIsTheInstruction : Obligations.DecodeOfEncodeIsTheInstruction :=
  fun _ _ rest h => decode_encode rest h

/-- Settles O47: the other direction of `decodeFrame_eq_ok`. -/
theorem decodedFrameIsItsEncoding : Obligations.DecodedFrameIsItsEncoding :=
  fun _ _ _ _ h => decodeFrame_eq_ok.mp h

/-- Settles O49: each selector is the pair of codes it was made from, and `decodeStep_selector` reads the pair. -/
theorem selectorTable : Obligations.SelectorTable := by
  intro b
  refine ⟨decodeStep_selector .seek .rx b, decodeStep_selector .hdr .rx b, decodeStep_selector .pay .rx b,
    decodeStep_selector .wr .mem b, decodeStep_selector .ack .tx b, decodeStep_selector .chain .rx b,
    decodeStep_selector .done .restart b, fun ev => decodeStep_selector .reserved ev b, ?_, ?_⟩
  · intro st hdone hreserved
    refine (decodeStep_selector st .restart b).trans ?_
    cases st with
    | done => exact absurd rfl hdone
    | reserved => exact absurd rfl hreserved
    | _ => rfl
  · intro st ev hev hreserved hstep
    refine (decodeStep_selector st ev b).trans ?_
    cases st <;> cases ev <;> simp at hev hreserved hstep ⊢

/-- Settles O50: each word is decoded by evaluation. -/
theorem writtenOutWordsDecode : Obligations.WrittenOutWordsDecode := by
  unfold Obligations.WrittenOutWordsDecode
  decide

end Sys2Proof.Machine
end

section
/-! Which instruction a clock edge runs (R98, R101), and what runs without one: CRC words and streams of bytes (R99, R103).
An event completes only where its agent lifts its hold, so a selected instruction meets no model fault. -/

namespace Sys2Proof.Machine

/-! ### The outputs of R101 -/

@[simp] theorem rxReady_iff {s : State} :
    rxReady s = true ↔ s.st = .seek ∨ s.st = .hdr ∨ s.st = .pay ∨ s.st = .chain := by
  simp [rxReady, or_assoc]

@[simp] theorem txValid_iff {s : State} : txValid s = true ↔ s.st = .ack := by
  simp [txValid]

@[simp] theorem memValid_iff {s : State} : memValid s = true ↔ s.st = .wr := by
  simp [memValid]

/-- Settles O34: each handshake signal is 1 in its own states, which no other signal shares. -/
theorem outputsAreFunctionsOfRegisters : Obligations.OutputsAreFunctionsOfRegisters := by
  intro s
  refine ⟨rxReady_iff, txValid_iff, memValid_iff, rfl, rfl, rfl, rfl, rfl, rfl, ?_, ?_, ?_⟩
  · rintro ⟨hrx, htx⟩
    simp [txValid_iff.mp htx] at hrx
  · rintro ⟨hrx, hmem⟩
    simp [memValid_iff.mp hmem] at hrx
  · rintro ⟨htx, hmem⟩
    simp [memValid_iff.mp hmem] at htx

/-! ### The event of an edge -/

/-- The event of an edge, with the transfer or the restart that makes it one. -/
theorem event_cases (p : Ports) (s : State) :
    (rxDone p s = true ∧ event p s = some .rx) ∨ (txDone p s = true ∧ event p s = some .tx) ∨
    (memDone p s = true ∧ event p s = some .mem) ∨ (p.restart = true ∧ event p s = some .restart) ∨
    event p s = none := by
  unfold event
  split
  · next h => exact .inl ⟨h, rfl⟩
  · split
    · next h => exact .inr (.inl ⟨h, rfl⟩)
    · split
      · next h => exact .inr (.inr (.inl ⟨h, rfl⟩))
      · split
        · next h => exact .inr (.inr (.inr (.inl ⟨h, rfl⟩)))
        · exact .inr (.inr (.inr (.inr rfl)))

/-- An RX event takes the transport's oldest byte. -/
theorem offered_of_event_rx {p : Ports} {s : State} (h : event p s = some .rx) :
    ∃ b r, s.rx = b :: r ∧ offered p s = some b := by
  obtain ⟨hrx, -⟩ | ⟨-, he⟩ | ⟨-, he⟩ | ⟨-, he⟩ | he := event_cases p s
  · exact offered_eq_some (Bool.and_eq_true_iff.mp hrx).2
  all_goals simp [he] at h

/-- A memory event is an accepted write. -/
theorem memDone_of_event_mem {p : Ports} {s : State} (h : event p s = some .mem) : memDone p s = true := by
  obtain ⟨-, he⟩ | ⟨-, he⟩ | ⟨hmem, -⟩ | ⟨-, he⟩ | he := event_cases p s
  case inr.inr.inl => exact hmem
  all_goals simp [he] at h

theorem memDone_iff {p : Ports} {s : State} :
    memDone p s = true ↔ s.st = .wr ∧ p.memReady = true ∧ neverAccepted s = false := by
  simp [memDone, and_assoc]

/-- A request is accepted when it is aligned, or the platform splits it (R66). -/
theorem neverAccepted_eq_false {s : State} (h : s.wrAddr.toNat % s.cfg.W = 0 ∨ s.cfg.misaligned = .split) :
    neverAccepted s = false := by
  obtain h | h := h <;> simp [neverAccepted, h]

theorem event_of_rxReady {p : Ports} {s : State} {b : Byte} {r : List Byte} (hst : rxReady s = true)
    (hrx : s.rx = b :: r) (hv : p.rxValid = true) : event p s = some .rx := by
  have hdone : rxDone p s = true := by simp [rxDone, hst, offered, hv, hrx]
  rw [event, if_pos hdone]

theorem event_of_txDone {p : Ports} {s : State} (hst : s.st = .ack) (hready : p.txReady = true) :
    event p s = some .tx := by
  simp [event, rxDone, rxReady, txDone, txValid, hst, hready]

theorem event_of_memDone {p : Ports} {s : State} (h : memDone p s = true) : event p s = some .mem := by
  have hst := (memDone_iff.mp h).1
  simp [event, rxDone, rxReady, txDone, txValid, hst, h]

theorem event_of_restart {p : Ports} {s : State} (hst : s.st = .done) (hrestart : p.restart = true) :
    event p s = some .restart := by
  simp [event, rxDone, rxReady, txDone, txValid, memDone, memValid, hst, hrestart]

/-! ### The instruction the event selects -/

/-- The byte matters to the selector of an RX step only. -/
theorem decodeStep_of_ne_rx {ev : Event} (hev : ev ≠ .rx) (st : Fsm) (b b' : Byte) :
    decodeStep (selector st ev) b = decodeStep (selector st ev) b' := by
  rw [decodeStep_selector, decodeStep_selector]
  cases ev with
  | rx => exact absurd rfl hev
  | _ => cases st <;> rfl

/-- An instruction is selected in no state that has a model fault. -/
theorem noteFault_of_decodeStep {p : Ports} {s : State} {ev : Event} {b : Byte} {i : Instr}
    (hev : event p s = some ev) (hdec : decodeStep (selector s.st ev) b = .ok i) : s.noteFault = s := by
  obtain ⟨hst, -⟩ | ⟨hst, hn, -⟩ | ⟨-, -, h⟩ := noteFault_cases s
  · simp [decodeStep_selector, hst] at hdec
  · obtain rfl : ev = .mem := by
      rw [hst, decodeStep_selector] at hdec
      cases ev <;> simp at hdec ⊢
    have hacc := (memDone_iff.mp (memDone_of_event_mem hev)).2.2
    simp [hn] at hacc
  · exact h

/-- A step at an edge without `rst` whose event completes is the instruction its selector picks, the operand taken. -/
theorem step_of_event {s : State} {p : Ports} {rest : List Input} {ev : Event} {i : Instr}
    (hi : s.inputs = .edge p :: rest) (hrst : p.rst = false) (hev : event p s = some ev)
    (hdec : decodeStep (selector s.st ev) ((offered p s).getD 0) = .ok i) :
    step s = exec i { s with inputs := rest, rx := if ev = .rx then s.rx.tail else s.rx } := by
  have hev' : event p { s with inputs := rest } = some ev := hev
  have hdec' : decodeStep (selector s.st ev) ((offered p { s with inputs := rest }).getD 0) = .ok i := hdec
  rw [step_of_edge hi, fetchEdge, noteFault_of_decodeStep hev' hdec', hev']
  simp only [hrst, hdec', Bool.false_eq_true, if_false]
  split
  · rfl
  · rfl

theorem except_map_eq_ok {ε α β : Type} {x : Except ε α} {f : α → β} {y : β} :
    x.map f = .ok y ↔ ∃ a, x = .ok a ∧ f a = y := by
  cases x with
  | error e => simp [Except.map]
  | ok a => simp [Except.map]

/-- Settles O27: the word of an RX step holds the byte offered, the word of any other step none. -/
theorem stepRunsTheSelectedInstruction : Obligations.StepRunsTheSelectedInstruction := by
  intro s p rest ev i r hi hrst hev hword
  have hword : decodeStepBytes (stepByte s.st ev :: s.rx) = .ok (i, r) := hword
  refine step_of_event hi hrst hev ?_
  by_cases hrx : ev = .rx
  · subst hrx
    obtain ⟨b, r', hbytes, hoffered⟩ := offered_of_event_rx hev
    rw [hbytes, decodeStepBytes_rx, except_map_eq_ok] at hword
    obtain ⟨i', hdec, hpair⟩ := hword
    obtain rfl : i' = i := congrArg Prod.fst hpair
    rw [hoffered, Option.getD_some, hdec]
  · rw [decodeStepBytes_of_ne_rx hrx, except_map_eq_ok] at hword
    obtain ⟨i', hdec, hpair⟩ := hword
    obtain rfl : i' = i := congrArg Prod.fst hpair
    rw [decodeStep_of_ne_rx hrx s.st _ 0, hdec]

/-- The step of an RX state at an edge that offers it a byte. -/
theorem step_of_offer {s : State} {p : Ports} {rest : List Input} {b : Byte} {r : List Byte} {i : Instr}
    (hi : s.inputs = .edge p :: rest) (hrst : p.rst = false) (hrx : s.rx = b :: r) (hv : p.rxValid = true)
    (hst : rxReady s = true) (hdec : decodeStep (selector s.st .rx) b = .ok i) :
    step s = exec i { s with inputs := rest, rx := r } := by
  have hbyte : (offered p s).getD 0 = b := by simp [offered, hv, hrx]
  rw [step_of_event hi hrst (event_of_rxReady hst hrx hv) (by rw [hbyte, hdec]), if_pos rfl, hrx, List.tail_cons]

/-- Settles O28: the event completes by the ports, and each state's selector with it picks the instruction. -/
theorem edgeRunsTheStatesInstruction : Obligations.EdgeRunsTheStatesInstruction := by
  intro s p rest hi hrst
  refine ⟨fun b r hrx hv => ?_, fun hst hready hacc => ?_, fun hst hready => ?_, fun hst hrestart => ?_⟩
  · refine ⟨fun hst => ?_, fun hst => ?_, fun hst => ?_, fun hst => ?_⟩ <;>
      exact step_of_offer hi hrst hrx hv (by simp [hst]) (by rw [hst, decodeStep_selector])
  · have hdone : memDone p s = true := memDone_iff.mpr ⟨hst, hready, neverAccepted_eq_false hacc⟩
    exact step_of_event hi hrst (event_of_memDone hdone) (by rw [hst, decodeStep_selector])
  · exact step_of_event hi hrst (event_of_txDone hst hready) (by rw [hst, decodeStep_selector])
  · exact step_of_event hi hrst (event_of_restart hst hrestart) (by rw [hst, decodeStep_selector])

/-! ### CRC words and streams -/

/-- A packet instruction is the sending of its frame (log 7). -/
theorem exec_of_frame {i : Instr} (h : i.fmt = .frame) (s : State) :
    exec i s = .next (sendBytes (encode s.cfg i) s) := by
  cases i with
  | pktData len addr payload => rfl
  | pktEntry addr => rfl
  | _ => nomatch h

/-- A stream that decodes as one packet and nothing after it runs as that packet. -/
theorem step_of_stream_packet {s : State} {bytes : List Byte} {rest : List Input} {i : Instr}
    (hi : s.inputs = .stream bytes :: rest) (hdec : decode .frame s.cfg bytes = .ok (i, [])) :
    step s = exec i { s with inputs := rest } := by
  simp [step_eq, fetch, hi, hdec, Fetched.outcome]

/-- Whatever the bytes are, a stream is sent to the block: one packet is the sending of its encoding, which the bytes
are. -/
theorem step_of_stream {s : State} {bytes : List Byte} {rest : List Input} (hi : s.inputs = .stream bytes :: rest) :
    step s = .next (sendBytes bytes { s with inputs := rest }) := by
  by_cases h : ∃ i, decode .frame s.cfg bytes = .ok (i, [])
  · obtain ⟨i, hdec⟩ := h
    obtain ⟨-, hfmt, hbytes⟩ := decodeFrame_eq_ok.mp hdec
    rw [step_of_stream_packet hi hdec, exec_of_frame hfmt, hbytes, List.append_nil]
  · rw [step_eq, fetch, hi]
    dsimp only
    split
    · next i hdec => exact absurd ⟨i, hdec⟩ h
    · rfl

/-- Settles O29: the decoders read back what the inputs hold, and `step_of_stream` sends any bytes. -/
theorem stepRunsCrcOpsAndPackets : Obligations.StepRunsCrcOpsAndPackets := by
  intro s rest
  refine ⟨fun op din hi => ⟨decodeCrcOp op din, decodeCrcBytes_crcOpByte op din [], ?_⟩, fun i hfmt hwf hi => ?_,
    fun bytes hi => step_of_stream hi⟩
  · simp [step_eq, fetch, hi, Fetched.outcome]
  · have hdec := decode_encode [] hwf
    rw [hfmt, List.append_nil] at hdec
    exact step_of_stream_packet hi hdec

end Sys2Proof.Machine
end

section
/-! What stands while an agent holds (R101), and what an edge does to memory (R60, R102). -/

namespace Sys2Proof.Machine

/-! ### Offers -/

@[simp] theorem txData_noteFault (s : State) : txData s.noteFault = txData s := by
  simp [txData, crcFin]

/-- An offer that is not taken: the edge changes nothing but the record of a fault. -/
theorem fetchEdge_of_hold {p : Ports} {s : State} (hrst : p.rst = false)
    (hhold : s.st = .ack ∧ p.txReady = false ∨ s.st = .wr ∧ (p.memReady = false ∨ neverAccepted s = true)) :
    (fetchEdge p s).outcome = .next s.noteFault := by
  obtain ⟨h, -⟩ | ⟨-, ⟨b, r, -, -, ⟨h, -⟩ | ⟨h, -⟩ | ⟨h, -⟩ | ⟨h, -⟩⟩ | ⟨h, hready, hacc, -⟩ | ⟨h, hready, -⟩ | ⟨h, -⟩ |
    he⟩ := edge_cases p s
  · simp [hrst] at h
  case inr.inr.inr.inr.inr => exact he
  case inr.inr.inl => simp [h, hready, hacc] at hhold
  case inr.inr.inr.inl => simp [h, hready] at hhold
  all_goals simp [h] at hhold

/-- Settles O35: a held edge keeps the state up to the record of faults, so it keeps the offer. -/
theorem offersAreHeldUntilTaken : Obligations.OffersAreHeldUntilTaken := by
  intro s t p rest hi hrst ht
  rw [step_of_edge hi] at ht
  have hkept (hhold : s.st = .ack ∧ p.txReady = false ∨ s.st = .wr ∧ (p.memReady = false ∨ neverAccepted s = true)) :
      State.noteFault { s with inputs := rest } = t :=
    Host.Outcome.next.inj ((fetchEdge_of_hold (s := { s with inputs := rest }) hrst hhold).symm.trans ht)
  refine ⟨fun hvalid hhold => ?_, fun hvalid hhold => ?_⟩
  · have hst := txValid_iff.mp hvalid
    obtain rfl := hkept (.inl ⟨hst, hhold⟩)
    exact ⟨by simpa using hst, txData_noteFault _⟩
  · have hst := memValid_iff.mp hvalid
    obtain rfl := hkept (.inr ⟨hst, hhold⟩)
    exact ⟨by simpa using hst, State.noteFault_wrAddr _, State.noteFault_wrData _⟩

/-! ### Memory at an edge -/

/-- An accepted `WR.MEM` does to memory what the write says (R183). -/
theorem wrRule_mem {s : State} (hn : neverAccepted s = false) :
    (wrRule s).mem = memWrite s.cfg s.wrAddr s.wrData s.mem := by
  obtain ⟨-, he⟩ | ⟨-, he⟩ := wrRule_cases hn <;> rw [he] <;> rfl

/-- The far side of a reset edge changes memory only by a write the memory accepts (R251). -/
theorem farSide_mem (p : Ports) (s : State) :
    (farSide p s).mem = s.mem ∨
    (memDone p s = true ∧ (farSide p s).mem = memWrite s.cfg s.wrAddr s.wrData s.mem) := by
  unfold farSide
  split
  · exact .inl rfl
  · split
    · exact .inl rfl
    · split
      · next h => exact .inr ⟨h, rfl⟩
      · exact .inl rfl

/-- Across a clock edge memory is unchanged, or the memory accepted the pending write. -/
theorem fetchEdge_mem (p : Ports) (s : State) :
    ∃ t, (fetchEdge p s).outcome = .next t ∧
      (t.mem = s.mem ∨ (memDone p s = true ∧ t.mem = memWrite s.cfg s.wrAddr s.wrData s.mem)) := by
  obtain ⟨-, he⟩ | ⟨-, ⟨b, r, -, -, ⟨-, he⟩ | ⟨-, he⟩ | ⟨-, he⟩ | ⟨-, he⟩⟩ | ⟨hst, hready, hn, he⟩ | ⟨-, -, he⟩ |
    ⟨-, -, he⟩ | he⟩ := edge_cases p s <;> refine ⟨_, he, ?_⟩
  · simpa [resetEdge, memDone_iff] using farSide_mem p s.noteFault
  · exact .inl (seekRule_mem b s.dropRx)
  · exact .inl (hdrRule_mem b s.dropRx)
  · exact .inl (payRule_mem b s.dropRx)
  · exact .inl (chainRule_mem b s.dropRx)
  · exact .inr ⟨memDone_iff.mpr ⟨hst, hready, hn⟩, wrRule_mem hn⟩
  · exact .inl (ackRule_mem s)
  · exact .inl rfl
  · exact .inl s.noteFault_mem

/-- Settles O41: the edge is the next step, and `fetchEdge_mem` names its one write. -/
theorem memoryChangesOnlyByAcceptedWrite : Obligations.MemoryChangesOnlyByAcceptedWrite := by
  intro s t p rest hi ht
  rw [step_of_edge hi] at ht
  obtain ⟨u, hu, hmem⟩ := fetchEdge_mem p { s with inputs := rest }
  obtain rfl : u = t := by simpa [hu] using ht
  refine hmem.imp_right fun ⟨hdone, hwrite⟩ => ?_
  obtain ⟨hst, hready, hn⟩ := memDone_iff.mp hdone
  exact ⟨memValid_iff.mpr hst, hready, hn, hwrite⟩

end Sys2Proof.Machine
end

section
/-! Runs of one kind of step: the header bytes taken (R152, R153), the acknowledgment bytes given (R95, R200), and `DONE`,
which takes nothing (R97, R101). -/

namespace Sys2Proof.Machine

/-! ### `DONE` -/

/-- A block in `DONE` is served nothing. -/
theorem serveN_of_done {s : State} (hst : s.st = .done) (n : Nat) : serveN n s = s := by
  refine serveN_induct (P := fun t => t = s) ?_ n s rfl
  rintro t rfl
  simp [serve, hst]

theorem sendBytes_of_done {s : State} (hst : s.st = .done) (bytes : List Byte) :
    sendBytes bytes s = { s with rx := s.rx ++ bytes } :=
  serveN_of_done (by exact hst) _

/-- Settles O25: a packet instruction is the sending of its frame, and `DONE` is served nothing. -/
theorem packetAfterDoneStaysWithTransport : Obligations.PacketAfterDoneStaysWithTransport := by
  intro s len addr payload hst
  refine ⟨?_, ?_⟩ <;> rw [exec_of_frame rfl, sendBytes_of_done hst]

/-! ### The header -/

theorem execAll_cons {i : Instr} {is : List Instr} {s t : State} (h : exec i s = .next t) :
    execAll (i :: is) s = execAll is t := by
  simp [execAll, h]

/-- A header byte does not look at the transport's other bytes. -/
theorem hdrRule_with_rx (b : Byte) (s : State) (bs : List Byte) :
    hdrRule b { s with rx := bs } = { hdrRule b s with rx := bs } := by
  by_cases hlast : s.k.toNat = 2 * s.cfg.W - 1
  · rw [hdrRule_last b hlast, hdrRule_last b (by exact hlast), State.hdrDone, State.hdrDone]
    split <;> rfl
  · by_cases hk : s.k.toNat < s.cfg.W
    · rw [hdrRule_length b hk, hdrRule_length b (by exact hk)]
    · have hW : s.cfg.W ≤ s.k.toNat := Nat.le_of_not_lt hk
      rw [hdrRule_address b hW hlast, hdrRule_address b (by exact hW) (by exact hlast)]

/-- A header byte before the last leaves the block in `HDR`, at the next position. -/
theorem hdrRule_stays (b : Byte) {s : State} (h : s.k.toNat ≠ 2 * s.cfg.W - 1) :
    (hdrRule b s).st = s.st ∧ (hdrRule b s).k = s.k + 1 ∧ (hdrRule b s).cfg = s.cfg := by
  obtain ⟨t, rfl, ⟨-, he⟩ | ⟨hlast, -⟩ | ⟨hlast, -⟩⟩ := hdrRule_cases b s
  · rw [he]; simp
  all_goals exact absurd hlast h

/-- The `HDR.RX` steps over header bytes are the serving of those bytes with the others behind them. -/
theorem execAll_hdrRx (bs : List Byte) {s : State} (hst : s.st = .hdr) (hk : s.k.toNat + bs.length ≤ 2 * s.cfg.W) :
    execAll (bs.map .hdrRx) s = .next (serveN bs.length { s with rx := bs ++ s.rx }) := by
  induction bs generalizing s with
  | nil => rfl
  | cons b bs ih =>
    rw [List.length_cons] at hk
    have hexec : exec (.hdrRx b) s = .next (hdrRule b s) := inState_of_eq hst
    have hserve : serve { s with rx := b :: bs ++ s.rx } = { hdrRule b s with rx := bs ++ (hdrRule b s).rx } := by
      rw [serve_of_hdr (by exact hst) rfl, hdrRule_rx]
      exact hdrRule_with_rx b s _
    rw [List.map_cons, execAll_cons hexec, List.length_cons, serveN, hserve]
    cases bs with
    | nil => rfl
    | cons b' bs =>
      rw [List.length_cons] at hk
      obtain ⟨hst', hk', hcfg⟩ := hdrRule_stays b (s := s) (by omega)
      have hW : 2 * s.cfg.W ≤ 16 := by obtain hW | hW := s.cfg.W_cases <;> omega
      refine ih (hst'.trans hst) ?_
      rw [hk', hcfg, List.length_cons]
      bv_omega

/-- Settles O10: the steps over the header are the serving of its bytes, whose result `serveN_header` states. -/
theorem headerBytesGiveLengthAndAddress : Obligations.HeaderBytesGiveLengthAndAddress := by
  intro s l a hst hk hlen haddr hl ha
  have hlength : (l ++ a).length = s.cfg.W + s.cfg.W := by rw [List.length_append, hl, ha]
  have hk0 : s.k.toNat = 0 := by rw [hk]; rfl
  have hheader := serveN_header (s := { s with rx := l ++ a ++ s.rx }) hst hk hlen haddr hl ha
    (List.append_assoc l a s.rx)
  dsimp only at hheader ⊢
  rw [execAll_hdrRx (l ++ a) hst (by omega), hlength, hheader, State.hdrDone]

/-! ### The acknowledgment -/

/-- A byte lane is the bits `[s+7:s]` (R9). -/
theorem byteAt_eq_extractLsb' {w : Nat} (v : BitVec w) (s : Nat) : byteAt v s = v.extractLsb' s 8 :=
  BitVec.setWidth_ushiftRight_eq_extractLsb ..

theorem ackRule_of_lt {s : State} (hk : s.k.toNat < 3) :
    ackRule s = { s.giveTx (txData s) with k := s.k + 1 } := by
  obtain ⟨t, rfl, ⟨-, he⟩ | ⟨h3, -⟩ | ⟨h3, -⟩⟩ := ackRule_cases s
  · exact he
  all_goals omega

@[simp] theorem ackRule_out (s : State) : (ackRule s).out = s.out ++ [.tx (txData s)] := by
  obtain ⟨t, rfl, ⟨-, he⟩ | ⟨-, -, he⟩ | ⟨-, -, he⟩⟩ := ackRule_cases s <;> rw [he] <;> rfl

/-- Acknowledgment bytes before the last: byte `k` on of `NOT crc`, and only the byte counter moves. -/
theorem execAll_ackTx_of_lt (is : List Instr) {s : State} (hst : s.st = .ack) (hk : s.k.toNat < 3) :
    execAll (.ackTx :: is) s =
      execAll is { s with k := s.k + 1, out := s.out ++ [.tx (byteAt (~~~s.crc) (8 * s.k.toNat))] } := by
  refine execAll_cons ((inState_of_eq hst).trans ?_)
  rw [ackRule_of_lt hk]
  rfl

/-- Settles O19: three bytes by `execAll_ackTx_of_lt`, then the last, which ends the packet and leaves `crc`. -/
theorem ackIsComplementLowByteFirst : Obligations.AckIsComplementLowByteFirst := by
  intro s hst hk
  dsimp only
  rw [execAll_ackTx_of_lt _ hst (by simp [hk]), execAll_ackTx_of_lt _ (by exact hst) (by simp [hk]),
    execAll_ackTx_of_lt _ (by exact hst) (by simp [hk])]
  refine ⟨_, execAll_cons (inState_of_eq (by exact hst)), ackRule_crc _, ?_⟩
  rw [ackRule_out]
  simp [hk, txData, crcFin, byteAt_eq_extractLsb']

end Sys2Proof.Machine
end

section
/-! The CRC accumulator: its byte update as an iteration, the MSB-first form seen through bit reversal (R135, R137), and the
four operations of the sub-unit (R130 to R134). -/

namespace Sys2Proof.Machine

/-! ### The byte update -/

theorem repeat_eq_iterate {α : Type} (f : α → α) (n : Nat) (a : α) : Nat.repeat f n a = f^[n] a := by
  induction n with
  | zero => rfl
  | succ n ih => rw [Function.iterate_succ_apply', ← ih]; rfl

theorem crcBits_eq_iterate (n : Nat) (t : Word32) : crcBits n t = crcBit^[n] t := by
  induction n generalizing t with
  | zero => rfl
  | succ n ih => exact ih (crcBit t)

/-- The test of R129 on the bit shifted out, by a mask. -/
theorem crcBit_eq_ite_and_one (t : Word32) :
    crcBit t = if t &&& 1 = 1 then (t >>> 1) ^^^ 0xEDB88320 else t >>> 1 := by
  have hmask : t &&& 1 = 1 ↔ t.getLsbD 0 = true := by
    rw [show (1 : Word32) = 1#32 from rfl, BitVec.and_one_eq_setWidth_ofBool_getLsbD]
    cases t.getLsbD 0 <;> decide
  simp only [crcBit, hmask, polyR]

/-- Settles O1: the loop of `crc8` is an iteration of `crcBit`, whose test is the rule's. -/
theorem crcByteUpdateIsEightShifts : Obligations.CrcByteUpdateIsEightShifts := by
  intro s b
  rw [crc8, crcBits_eq_iterate, repeat_eq_iterate, funext crcBit_eq_ite_and_one]

/-! ### The MSB-first form -/

theorem reverse_xor {w : Nat} (x y : BitVec w) : (x ^^^ y).reverse = x.reverse ^^^ y.reverse := by
  ext i hi
  simp [BitVec.getElem_reverse]

theorem reverse_shiftLeft {w : Nat} (x : BitVec w) (n : Nat) : (x <<< n).reverse = x.reverse >>> n := by
  ext i hi
  simp [BitVec.getElem_reverse, BitVec.getLsbD_reverse, Nat.add_comm]

/-- A byte placed at the high end and seen in reverse is the reversed byte at the low end. -/
theorem reverse_highByte (b : Byte) : (b.setWidth 32 <<< 24).reverse = b.reverse.setWidth 32 := by
  ext i hi
  simp [BitVec.getElem_reverse, BitVec.getLsbD_reverse, BitVec.getMsbD_setWidth]

/-- R137: the two polynomials are the reversal of each other, so one bit of either form is one bit of the other. -/
theorem semiconj_reverse_msbBit_crcBit : Function.Semiconj BitVec.reverse msbBit crcBit := by
  intro t
  have hpoly : BitVec.reverse (0x04C11DB7 : Word32) = polyR := by decide +kernel
  have htest : t.reverse.getLsbD 0 = t.getLsbD 31 := by rw [BitVec.getLsbD_reverse]; simp [BitVec.getMsbD]
  rw [msbBit, crcBit, htest]
  split
  · rw [reverse_xor, reverse_shiftLeft, hpoly]
  · rw [reverse_shiftLeft]

theorem reverse_msbByte (s : Word32) (b : Byte) : (msbByte s b).reverse = crc8 s.reverse b.reverse := by
  rw [msbByte, crc8, repeat_eq_iterate, crcBits_eq_iterate, semiconj_reverse_msbBit_crcBit.iterate_right 8, reverse_xor,
    reverse_highByte]

theorem reverse_foldl_msbByte (s : Word32) (bs : List Byte) :
    ((bs.map BitVec.reverse).foldl msbByte s).reverse = bs.foldl crc8 s.reverse := by
  rw [List.foldl_map]
  refine (List.foldl_hom BitVec.reverse fun t b => ?_).symm
  rw [reverse_msbByte, BitVec.reverse_reverse_eq]

/-- Settles O4: the two folds are the reversal of each other, and so are their equal initial values. -/
theorem crcOfBytesIsStandardCrc32 : Obligations.CrcOfBytesIsStandardCrc32 := by
  have hinit : BitVec.reverse (0xFFFFFFFF : Word32) = 0xFFFFFFFF := by decide +kernel
  have hstd (bs : List Byte) : ~~~ bs.foldl crc8 0xFFFFFFFF = standardCrc32 bs := by
    rw [standardCrc32, reverse_foldl_msbByte, hinit]
    exact BitVec.xor_allOnes.symm
  refine ⟨hstd, ?_⟩
  rw [← hstd]
  decide +kernel

/-! ### The four operations -/

/-- Settles O2: each operation drives the sub-unit, which writes `crc` only; the values of R132 are computed. -/
theorem crcInitHoldUpdWriteCrcOnly : Obligations.CrcInitHoldUpdWriteCrcOnly := by
  intro s b
  have hzero : crc8 0x00000000 0x00 = 0x00000000 := by decide
  have hones : crc8 0xFFFFFFFF 0xFF = 0x00FFFFFF := by decide
  have hexample : crc8 0xFFFFFFFF 0x01 = 0x5AFA20E4 := by decide
  exact ⟨rfl, rfl, rfl, hzero, hones, hexample⟩

theorem exec_crcLoadm (s : State) : exec .crcLoadm s = .next { s with crc := crcMagic s.cfg.endian } := rfl

theorem crcMagic_eq_ite (e : Endian) : crcMagic e = if e = .le then 0xD9F3C4C1 else 0x0748E422 := by
  cases e
  · exact crcMagic_le
  · exact crcMagic_be

/-- `CRC.UPD` on each byte of a list folds `CRC8` over the list. -/
theorem execAll_crcUpd (bs : List Byte) (s : State) :
    execAll (bs.map .crcUpd) s = .next { s with crc := crcBytes s.crc bs } := by
  induction bs generalizing s with
  | nil => rfl
  | cons b bs ih => exact ih { s with crc := crc8 s.crc b }

/-- Settles O3: the preset is the table's constant, and by definition `CRC8` folded over the magic's wire bytes. -/
theorem crcLoadmLoadsMagicPreset : Obligations.CrcLoadmLoadsMagicPreset := by
  intro s
  have hinit : exec .crcInit s = .next { s with crc := crcInit } := rfl
  constructor
  · rw [exec_crcLoadm, crcMagic_eq_ite]
  · rw [exec_crcLoadm, execAll_cons hinit, execAll_crcUpd, crcMagic]

end Sys2Proof.Machine
end

section
/-! The frame parser (R150 to R157): the seek window as the last four bytes taken, the first byte at which it is the
magic, and the three RX steps outside the payload as whole next states. -/

namespace Sys2Proof.Machine

/-! ### The window -/

theorem byteAt_setWidth_of_le {w v : Nat} (h : w ≤ v) (x : BitVec w) (s : Nat) :
    byteAt (x.setWidth v) s = byteAt x s := by
  apply BitVec.eq_of_getLsbD_eq
  intro r hr
  rw [byteAt_getLsbD _ _ hr, byteAt_getLsbD _ _ hr, BitVec.getLsbD_setWidth]
  by_cases hv : s + r < v
  · simp [hv]
  · simp [hv, BitVec.getLsbD_of_ge x (s + r) (by omega)]

/-- `SHIFTIN` puts the byte at the last of the window's four positions (R156). -/
theorem byteAt_shiftIn_last (e : Endian) (w : Word32) (b : Byte) : byteAt (shiftIn e w b) (sh e 3 4) = b := by
  apply BitVec.eq_of_getLsbD_eq
  intro r hr
  rw [byteAt_getLsbD _ _ hr]
  cases e with
  | le => simp [shiftIn, sh, hr, BitVec.getLsbD_of_ge w (8 + (24 + r)) (by omega), show 24 + r < 32 by omega]
  | be => simp [shiftIn, sh, hr, show r < 32 by omega]

/-- `SHIFTIN` moves every other byte one position towards the first (R156). -/
theorem byteAt_shiftIn_of_lt (e : Endian) (w : Word32) (b : Byte) {q : Nat} (hq : q < 3) :
    byteAt (shiftIn e w b) (sh e q 4) = byteAt w (sh e (q + 1) 4) := by
  apply BitVec.eq_of_getLsbD_eq
  intro r hr
  rw [byteAt_getLsbD _ _ hr, byteAt_getLsbD _ _ hr]
  cases e with
  | le =>
    have hi : 8 + (8 * q + r) = 8 * (q + 1) + r := by omega
    simp [shiftIn, sh, hi, show 8 * q + r < 24 by omega]
  | be =>
    have hi : 8 * (4 - 1 - q) + r - 8 = 8 * (4 - 1 - (q + 1)) + r := by omega
    simp only [shiftIn, sh, BitVec.getLsbD_or, BitVec.getLsbD_shiftLeft, BitVec.getLsbD_setWidth, hi,
      BitVec.getLsbD_of_ge b (8 * (4 - 1 - q) + r) (by omega)]
    simp [show 8 * (3 - q) + r < 32 by omega, show ¬ 8 * (3 - q) + r < 8 by omega]

/-- Four bytes shift everything older out: the window is their assembly (R156). -/
theorem foldl_shiftIn_of_length (e : Endian) (w : Word32) {bs : List Byte} (h : bs.length = 4) :
    (bs.foldl (shiftIn e) w).setWidth 64 = assemble e 4 0 bs := by
  obtain ⟨b0, b1, b2, b3, rfl⟩ := List.length_eq_four.mp h
  have hfit : ((List.foldl (shiftIn e) w [b0, b1, b2, b3]).setWidth 64).toNat < 2 ^ (8 * 4) := by
    rw [BitVec.toNat_setWidth_of_le (by decide)]
    exact BitVec.isLt _
  refine eq_of_byteAt_eq e hfit (assemble_toNat_lt (by decide) _ 0 (by simp)) fun q hq => ?_
  rw [byteAt_setWidth_of_le (by decide), byteAt_assemble (by decide) hq _ 0 (by simp)]
  interval_cases q <;> simp [byteAt_shiftIn_last, byteAt_shiftIn_of_lt]

/-- A window filled by four bytes is the magic exactly when they are its wire bytes (R156). -/
theorem foldl_shiftIn_eq_magic_iff_of_length (e : Endian) (w : Word32) {bs : List Byte} (h : bs.length = 4) :
    bs.foldl (shiftIn e) w = magic ↔ bs = wire e 4 magic := by
  constructor
  · intro hm
    have hasm : assemble e 4 0 bs = magic.setWidth 64 := by rw [← foldl_shiftIn_of_length e w h, hm]
    have hwire : wire e 4 (magic.setWidth 64) = wire e 4 magic := by cases e <;> rfl
    rw [← wire_assemble (by decide) h, hasm, hwire]
  · rintro rfl
    exact marker_fills_window e w

/-- Settles O6: the fold of `SHIFTIN` over four bytes, read lane by lane; its two forms are its definition. -/
theorem windowHoldsLastFourBytes : Obligations.WindowHoldsLastFourBytes := fun e w b0 b1 b2 b3 =>
  ⟨foldl_shiftIn_of_length (bs := [b0, b1, b2, b3]) e w rfl,
    foldl_shiftIn_eq_magic_iff_of_length (bs := [b0, b1, b2, b3]) e w rfl, fun _ => rfl, fun _ => rfl⟩

/-- Once four bytes were taken the window is the magic exactly when they end in its wire bytes, whatever it held. -/
theorem foldl_shiftIn_eq_magic_iff (e : Endian) (w : Word32) {bs : List Byte} (h : 4 ≤ bs.length) :
    bs.foldl (shiftIn e) w = magic ↔ wire e 4 magic <:+ bs := by
  obtain ⟨pre, last, rfl, hlast⟩ : ∃ pre last, bs = pre ++ last ∧ last.length = 4 :=
    ⟨bs.take (bs.length - 4), bs.drop (bs.length - 4), (List.take_append_drop _ _).symm,
      by rw [List.length_drop]; omega⟩
  rw [List.foldl_append, foldl_shiftIn_eq_magic_iff_of_length e _ hlast]
  constructor
  · rintro rfl
    exact List.suffix_append _ _
  · intro hm
    have hsuffix := List.suffix_of_suffix_length_le (List.suffix_append pre last) hm (by simp [hlast])
    exact hsuffix.eq_of_length (by simp [hlast])

theorem foldl_shiftIn_replicate_zero (e : Endian) (n : Nat) : (List.replicate n 0#8).foldl (shiftIn e) 0 = 0 := by
  have hzero : shiftIn e 0 0#8 = 0 := by cases e <;> decide
  induction n with
  | zero => rfl
  | succ n ih => rw [List.replicate_succ, List.foldl_cons, hzero, ih]

/-- The magic has no zero byte, so zero bytes before a sequence never take part in it. -/
theorem magic_suffix_zeros_append_iff (e : Endian) (n : Nat) (bs : List Byte) :
    wire e 4 magic <:+ List.replicate n 0#8 ++ bs ↔ wire e 4 magic <:+ bs := by
  have hnonzero : 0#8 ∉ wire e 4 magic := by cases e <;> decide
  induction n with
  | zero => rfl
  | succ n ih =>
    have hne : wire e 4 magic ≠ 0#8 :: (List.replicate n 0#8 ++ bs) :=
      fun heq => hnonzero (heq ▸ List.mem_cons_self)
    rw [List.replicate_succ, List.cons_append, List.suffix_cons_iff, or_iff_right hne]
    exact ih

/-- A window that was empty is the magic exactly when the bytes taken end in its wire bytes, however few they are: an
empty window is one into which zero bytes were shifted (R157). -/
theorem foldl_shiftIn_zero_eq_magic_iff (e : Endian) (bs : List Byte) :
    bs.foldl (shiftIn e) 0 = magic ↔ wire e 4 magic <:+ bs := by
  have hpad : (List.replicate 4 0#8 ++ bs).foldl (shiftIn e) 0 = bs.foldl (shiftIn e) 0 := by
    rw [List.foldl_append, foldl_shiftIn_replicate_zero]
  rw [← hpad, foldl_shiftIn_eq_magic_iff e 0 (by simp), magic_suffix_zeros_append_iff]

/-! ### `SEEK.RX` and `CHAIN.RX` -/

/-- `ENTER_HDR` on the magic, written out (R151). -/
theorem enterHdr_of_magic (s : State) :
    { s with win := magic }.enterHdr =
      { s with win := 0x55AA55AA, crc := crcMagic s.cfg.endian, len := 0, addr := 0, k := 0, st := .hdr } := rfl

theorem exec_seekRx_of_magic {s : State} {b : Byte} (hst : s.st = .seek) (h : shiftIn s.cfg.endian s.win b = magic) :
    exec (.seekRx b) s = .next { s with win := magic }.enterHdr := by
  have hexec : exec (.seekRx b) s = .next (seekRule b s) := inState_of_eq hst
  obtain ⟨-, he⟩ | ⟨hne, -⟩ := seekRule_cases b s
  · rw [hexec, he]
  · exact absurd h hne

theorem exec_seekRx_of_ne_magic {s : State} {b : Byte} (hst : s.st = .seek)
    (h : shiftIn s.cfg.endian s.win b ≠ magic) :
    exec (.seekRx b) s = .next { s with win := shiftIn s.cfg.endian s.win b } := by
  have hexec : exec (.seekRx b) s = .next (seekRule b s) := inState_of_eq hst
  obtain ⟨hm, -⟩ | ⟨-, he⟩ := seekRule_cases b s
  · exact absurd hm h
  · rw [hexec, he, ← hst]

/-- Settles O7: the two branches of the step rule. -/
theorem seekRxShiftsOrEntersHeader : Obligations.SeekRxShiftsOrEntersHeader := fun s _ hst =>
  ⟨fun h => (exec_seekRx_of_magic hst h).trans (congrArg _ (enterHdr_of_magic s)),
    fun h => exec_seekRx_of_ne_magic hst h⟩

/-- Settles O11: the three branches of the step rule, told apart by the byte counter and the window. -/
theorem chainRxJudgesAtFourthByte : Obligations.ChainRxJudgesAtFourthByte := by
  intro s b hst w
  have hexec : exec (.chainRx b) s = .next (chainRule b s) := inState_of_eq hst
  rw [hexec]
  obtain ⟨hk, he⟩ | ⟨hk, hm, he⟩ | ⟨hk, hm, he⟩ := chainRule_cases b s
  · exact ⟨fun _ => congrArg _ he, fun h => absurd hk h, fun h => absurd hk h⟩
  · exact ⟨fun h => absurd hk (Nat.not_le.mpr h), fun _ _ => congrArg _ (he.trans (enterHdr_of_magic s)),
      fun _ h => absurd hm h⟩
  · exact ⟨fun h => absurd hk (Nat.not_le.mpr h), fun _ h => absurd h hm, fun _ _ => congrArg _ he⟩

/-! ### A seek -/

theorem execAll_append {is js : List Instr} {s t : State} (h : execAll is s = .next t) :
    execAll (is ++ js) s = execAll js t := by
  induction is generalizing s with
  | nil => cases h; rfl
  | cons i is ih =>
    rw [execAll] at h
    split at h
    · next u hu => rw [List.cons_append, execAll_cons hu, ih h]
    · cases h
    · cases h

/-- A property some initial segment has holds of a shortest one, which is not empty if it does not hold of `[]`. -/
theorem exists_shortest_prefix {α : Type} {P : List α → Prop} (hnil : ¬ P []) {l : List α}
    (h : ∃ p, p <+: l ∧ P p) :
    ∃ pre a, pre ++ [a] <+: l ∧ P (pre ++ [a]) ∧ ∀ p, p <+: pre → ¬ P p := by
  induction l using List.reverseRecOn with
  | nil =>
    obtain ⟨p, hp, hP⟩ := h
    exact absurd (List.prefix_nil.mp hp ▸ hP) hnil
  | append_singleton l a ih =>
    by_cases hl : ∃ p, p <+: l ∧ P p
    · obtain ⟨pre, b, hpre, hrest⟩ := ih hl
      exact ⟨pre, b, hpre.trans (List.prefix_append _ _), hrest⟩
    · obtain ⟨p, hp, hP⟩ := h
      obtain rfl | hp := List.prefix_concat_iff.mp hp
      · exact ⟨l, a, List.prefix_rfl, hP, fun p hp hP => hl ⟨p, hp, hP⟩⟩
      · exact absurd ⟨p, hp, hP⟩ hl

section
variable {s : State} {bs : List Byte} (hst : s.st = .seek) (hwin : s.win = 0)
  (hmiss : ∀ pre, pre <+: bs → ¬ wire s.cfg.endian 4 magic <:+ pre)
include hst hwin hmiss

/-- Bytes no initial segment of which ends in the magic are all taken in `SEEK`; only the window changes (R150, R157). -/
theorem execAll_seekRx_of_miss :
    execAll (bs.map .seekRx) s = .next { s with win := bs.foldl (shiftIn s.cfg.endian) 0 } := by
  induction bs using List.reverseRecOn with
  | nil => simp [execAll, ← hwin]
  | append_singleton bs b ih =>
    have hne : shiftIn s.cfg.endian (bs.foldl (shiftIn s.cfg.endian) 0) b ≠ magic := by
      have := hmiss _ List.prefix_rfl
      rwa [← foldl_shiftIn_zero_eq_magic_iff, List.foldl_concat] at this
    rw [List.map_append, execAll_append (ih fun pre hpre => hmiss pre (hpre.trans (List.prefix_append _ _))),
      List.foldl_concat]
    exact execAll_cons (exec_seekRx_of_ne_magic hst hne)

/-- The byte that completes the first magic leads into the header (R157, R151). -/
theorem execAll_seekRx_of_first_magic {b : Byte} (hm : wire s.cfg.endian 4 magic <:+ bs ++ [b]) :
    execAll ((bs ++ [b]).map .seekRx) s = .next { s with win := magic }.enterHdr := by
  have heq : shiftIn s.cfg.endian (bs.foldl (shiftIn s.cfg.endian) 0) b = magic := by
    rwa [← foldl_shiftIn_zero_eq_magic_iff, List.foldl_concat] at hm
  rw [List.map_append, execAll_append (execAll_seekRx_of_miss hst hwin hmiss)]
  exact execAll_cons (exec_seekRx_of_magic hst heq)

end

/-- Settles O8: before the first magic the block stays in `SEEK`, and noise with a magic behind it has a shortest initial
segment that ends in one. -/
theorem seekLeavesAtFirstMagic : Obligations.SeekLeavesAtFirstMagic := by
  intro s hst hwin m entered
  refine ⟨fun bs hmiss => ⟨⟨_, execAll_seekRx_of_miss hst hwin hmiss⟩,
    fun b hb => execAll_seekRx_of_first_magic hst hwin hmiss hb⟩, fun noise => ?_⟩
  have hnil : ¬ m <:+ [] := fun h => by simpa [m] using h.length_le
  obtain ⟨pre, b, hpre, hb, hmiss⟩ := exists_shortest_prefix (P := (m <:+ ·)) hnil
    ⟨noise ++ m, List.prefix_rfl, List.suffix_append noise m⟩
  exact ⟨pre ++ [b], hpre, execAll_seekRx_of_first_magic hst hwin hmiss hb⟩

/-! ### `HDR.RX` -/

/-- The field that takes a header byte, with the byte's CRC update, as one record (R152). -/
theorem hdrField_driveCrc (b : Byte) (s : State) :
    hdrField b (s.driveCrc .upd b) = { s with
      crc := crc8 s.crc b
      len := if s.k.toNat < s.cfg.W then s.len ||| lane s.cfg s.k.toNat b else s.len
      addr := if s.k.toNat < s.cfg.W then s.addr else s.addr ||| lane s.cfg (s.k.toNat - s.cfg.W) b } := by
  by_cases hk : s.k.toNat < s.cfg.W
  · rw [if_pos hk, if_pos hk]
    exact if_pos hk
  · rw [if_neg hk, if_neg hk]
    exact if_neg hk

/-- Settles O9: the three branches of the step rule, told apart by the byte counter and the length. -/
theorem hdrRxAssemblesField : Obligations.HdrRxAssemblesField := by
  intro s b hst len' addr' t
  have hexec : exec (.hdrRx b) s = .next (hdrRule b s) := inState_of_eq hst
  obtain ⟨u, hu, hcases⟩ := hdrRule_cases b s
  obtain rfl : u = t := hu.trans (hdrField_driveCrc b s)
  rw [hexec]
  obtain ⟨hk, he⟩ | ⟨hk, hlen, he⟩ | ⟨hk, hlen, he⟩ := hcases
  · exact ⟨fun _ => congrArg _ he, fun h => absurd h hk, fun h => absurd h hk⟩
  · exact ⟨fun h => absurd hk h, fun _ _ => congrArg _ he, fun _ h => absurd hlen h⟩
  · exact ⟨fun h => absurd hk h, fun _ h => absurd h hlen, fun _ _ => congrArg _ he⟩

end Sys2Proof.Machine
end

section
/-! `PAY.RX` and `WR.MEM` as single steps (R180 to R183): the whole next state of each, and the bytes a write stores. -/

namespace Sys2Proof.Machine

/-- Settles O12: the two effects of the step rule, told apart by the byte's position and the count after it. -/
theorem payRxAssemblesAndIssuesWrites : Obligations.PayRxAssemblesAndIssuesWrites := by
  intro s b hst p v x t
  have hexec : exec (.payRx b) s = .next (payRule b s) := inState_of_eq hst
  rw [hexec]
  refine ⟨fun hlast => congrArg _ (payRule_issue b hlast), fun hp hj => congrArg _ ?_⟩
  rw [payRule_gather b hp hj, State.gatherByte, ← hst]
  rfl

theorem exec_wrMem {s : State} (hst : s.st = .wr) : exec .wrMem s = .next (wrRule s) := inState_of_eq hst

/-- Settles O14: the two branches of the step rule on a write the memory accepts. -/
theorem wrMemPerformsPendingWrite : Obligations.WrMemPerformsPendingWrite := by
  intro s hst hacc t
  rw [exec_wrMem hst]
  obtain ⟨hj, he⟩ | ⟨hj, he⟩ := wrRule_cases (neverAccepted_eq_false hacc)
  · exact ⟨fun _ => congrArg _ he, fun h => absurd hj h⟩
  · exact ⟨fun h => absurd h hj, fun _ => congrArg _ he⟩

/-- A misaligned request under `fault` is one the memory never accepts (R66). -/
theorem neverAccepted_eq_true {s : State} (hst : s.st = .wr) (hmis : s.wrAddr.toNat % s.cfg.W ≠ 0)
    (hfault : s.cfg.misaligned = .fault) : neverAccepted s = true := by
  simp [neverAccepted, hst, hmis, hfault]

/-- Settles O15: an accepted write is `memWrite` at `wr_addr`, a refused one leaves memory. -/
theorem wrMemStoresExactlyTheWord : Obligations.WrMemStoresExactlyTheWord := by
  intro s hst
  refine ⟨wrRule s, exec_wrMem hst, fun hacc => ?_, fun hmis hfault x => ?_⟩
  · rw [wrRule_mem (neverAccepted_eq_false hacc)]
    exact ⟨fun i hi => read_memWrite hi, fun x hx => read_memWrite_of_ne hx⟩
  · rw [wrRule_of_neverAccepted (neverAccepted_eq_true hst hmis hfault), State.noteFault_mem]

end Sys2Proof.Machine
end

section
/-! The writes of a DATA packet (R184): where their bytes go and what memory holds after them; and the serving of an
acknowledgment (R200). -/

namespace Sys2Proof.Machine

/-! ### The writes of a packet -/

variable {c : Cfg} {addr : Word} {payload : List Byte}

/-- The address space holds a whole number of words. -/
theorem W_dvd_two_pow_bits (c : Cfg) : c.W ∣ 2 ^ c.bits := by
  obtain h | h := c.W_cases <;> rw [Cfg.bits, h] <;> decide

theorem two_pow_bits_dvd (c : Cfg) : 2 ^ c.bits ∣ 2 ^ 64 := pow_dvd_pow 2 c.bits_le

theorem writeAddr_toNat (c : Cfg) (addr : Word) (m : Nat) :
    (writeAddr c addr m).toNat = (addr.toNat + m * c.W) % 2 ^ c.bits := by
  have hlt : (addr.toNat + m * c.W) % 2 ^ c.bits < 2 ^ 64 :=
    (Nat.mod_lt _ (Nat.two_pow_pos _)).trans_le (Nat.le_of_dvd (Nat.two_pow_pos _) (two_pow_bits_dvd c))
  rw [writeAddr, BitVec.toNat_ofNat, Nat.mod_eq_of_lt hlt]

/-- The bytes of write number `m` go to the addresses of payload bytes `m*W` on (R65, R184). -/
theorem byteAddr_writeAddr (c : Cfg) (addr : Word) (m i : Nat) :
    byteAddr c (writeAddr c addr m) i = byteAddr c addr (m * c.W + i) := by
  rw [byteAddr, writeAddr_toNat, Nat.mod_add_mod, Nat.add_assoc, byteAddr]

/-- Every write of a packet to an aligned address is aligned. -/
theorem writeAddr_aligned (h : addr.toNat % c.W = 0) (m : Nat) : (writeAddr c addr m).toNat % c.W = 0 := by
  rw [writeAddr_toNat, Nat.mod_mod_of_dvd _ (W_dvd_two_pow_bits c), Nat.add_mul_mod_self_right, h]

/-- The address the block computes from a byte count at the start of a word (R180) is that word's. -/
theorem fit_add_ofNat (c : Cfg) (addr : Word) (m : Nat) :
    fit c (addr + BitVec.ofNat 64 (m * c.W)) = writeAddr c addr m := by
  apply BitVec.eq_of_toNat_eq
  rw [fit_toNat, writeAddr_toNat, BitVec.toNat_add, BitVec.toNat_ofNat, Nat.add_mod_mod,
    Nat.mod_mod_of_dvd _ (two_pow_bits_dvd c)]

/-- Lane `i` of write number `m` is payload byte `m*W + i`, zero past the payload's end (R184). -/
theorem byteAt_writeValue (payload : List Byte) (m : Nat) {i : Nat} (hi : i < c.W) :
    byteAt (writeValue c payload m) (sh c.endian i c.W) = payload.getD (m * c.W + i) 0 := by
  have hW : c.W ≤ 8 := by obtain h | h := c.W_cases <;> omega
  rw [writeValue, byteAt_assemble hW hi _ 0 (by simp)]
  simp [hi]

/-- A word is one of the packet's exactly when its first byte is one of the payload's. -/
theorem lt_wordCount_iff {m : Nat} : m < wordCount c payload ↔ m * c.W < payload.length := by
  have hW := c.W_pos
  rw [wordCount, ← Nat.succ_le_iff, Nat.le_div_iff_mul_le hW, Nat.succ_mul]
  omega

/-- So many words hold the whole payload exactly when they are all of the packet's (R65). -/
theorem wordCount_le_iff {m : Nat} : wordCount c payload ≤ m ↔ payload.length ≤ m * c.W := by
  rw [← Nat.not_lt, lt_wordCount_iff, Nat.not_lt]

/-- The words of a packet whose length fits do not overlap in the address space. -/
theorem wordCount_mul_W_le (h : payload.length < 2 ^ c.bits) : wordCount c payload * c.W ≤ 2 ^ c.bits := by
  obtain ⟨q, hq⟩ := W_dvd_two_pow_bits c
  rw [Nat.mul_comm] at hq
  rw [hq] at h ⊢
  exact Nat.mul_le_mul_right _ (wordCount_le_iff.mpr h.le)

/-- Distances within the address space lead to different addresses. -/
theorem byteAddr_inj {i n : Nat} (hi : i < 2 ^ c.bits) (hn : n < 2 ^ c.bits)
    (h : byteAddr c addr i = byteAddr c addr n) : i = n :=
  (Nat.ModEq.add_left_cancel' addr.toNat h).eq_of_lt_of_lt hi hn

/-- Memory after the first `n` writes of a packet. -/
def memWriteWords (c : Cfg) (addr : Word) (payload : List Byte) (n : Nat) (m : Memory) : Memory :=
  match n with
  | 0 => m
  | n + 1 => memWrite c (writeAddr c addr n) (writeValue c payload n) (memWriteWords c addr payload n m)

/-- The first `n` writes put the payload's bytes in order, zero past its end. -/
theorem read_memWriteWords {m : Memory} {n : Nat} (hn : n * c.W ≤ 2 ^ c.bits) {i : Nat} (hi : i < n * c.W) :
    Memory.read (memWriteWords c addr payload n m) (byteAddr c addr i) = some (payload.getD i 0) := by
  induction n with
  | zero => simp at hi
  | succ n ih =>
    rw [Nat.succ_mul] at hn hi
    rw [memWriteWords]
    by_cases hlt : i < n * c.W
    · have hother : ∀ q < c.W, byteAddr c addr i ≠ byteAddr c (writeAddr c addr n) q := by
        intro q hq heq
        rw [byteAddr_writeAddr] at heq
        have := byteAddr_inj (by omega) (by omega) heq
        omega
      rw [read_memWrite_of_ne hother, ih (by omega) hlt]
    · obtain ⟨q, rfl⟩ := Nat.exists_eq_add_of_le (Nat.le_of_not_lt hlt)
      have hq : q < c.W := by omega
      rw [← byteAddr_writeAddr, read_memWrite hq, byteAt_writeValue _ _ hq]

/-- The first `n` writes leave every address but those of their words. -/
theorem read_memWriteWords_of_ne {m : Memory} {n x : Nat} (hx : ∀ i < n * c.W, x ≠ byteAddr c addr i) :
    Memory.read (memWriteWords c addr payload n m) x = Memory.read m x := by
  induction n with
  | zero => rfl
  | succ n ih =>
    rw [Nat.succ_mul] at hx
    have hword : ∀ q < c.W, x ≠ byteAddr c (writeAddr c addr n) q := fun q hq => by
      rw [byteAddr_writeAddr]
      exact hx _ (by omega)
    rw [memWriteWords, read_memWrite_of_ne hword, ih fun i hi => hx i (by omega)]

/-! ### Serving: the acknowledgment, and a block with nothing to take -/

theorem serve_of_ack {s : State} (hst : s.st = .ack) : serve s = ackRule s := by
  simp [serve, hst]

theorem serve_of_wr {s : State} (hst : s.st = .wr) : serve s = wrRule s := by
  simp [serve, hst]

/-- From its first byte on, the acknowledgment gives the four bytes of `NOT crc` and ends the packet (R95, R200). -/
theorem serveN_ack {s : State} (hst : s.st = .ack) (hk : s.k = 0) :
    serveN 4 s = State.ackDone { s with k := 3, out := s.out ++ ackOutputs (~~~s.crc) } := by
  have hgive {t : State} (ht : t.st = .ack) (hlt : t.k.toNat < 3) :
      serve t = { t with k := t.k + 1, out := t.out ++ [.tx (byteAt (~~~t.crc) (8 * t.k.toNat))] } :=
    (serve_of_ack ht).trans (ackRule_of_lt hlt)
  rw [serveN, hgive hst (by simp [hk]), serveN, hgive (by exact hst) (by simp [hk]), serveN,
    hgive (by exact hst) (by simp [hk]), serveN, serve_of_ack (by exact hst)]
  simp [serveN, ackRule, State.giveTx, txData, crcFin, ackOutputs, hk]

/-- A block in the chain check with an empty transport is served nothing. -/
theorem serveN_of_chain_empty {s : State} (hst : s.st = .chain) (hrx : s.rx = []) (n : Nat) : serveN n s = s := by
  refine serveN_induct (P := fun t => t = s) ?_ n s rfl
  rintro t rfl
  simp [serve, hst, serveRx, hrx]

end Sys2Proof.Machine
end

section
/-! A DATA packet as one run of serving (R184, R185): from each pending write to the next, and after the last to the end
of its acknowledgment. -/

namespace Sys2Proof.Machine

/-! ### The next word -/

/-- The first `m + 1` words of a payload are the first `m` and the bytes of the next. -/
theorem take_words_succ (payload : List Byte) (m W : Nat) :
    payload.take ((m + 1) * W) = payload.take (m * W) ++ (payload.drop (m * W)).take W := by
  rw [Nat.succ_mul, List.take_add]

/-- At the start of word `m` of a payload, its bytes make write number `m` pending (R180, R184). -/
theorem serveN_payloadWord {s : State} {payload : List Byte} {m : Nat} (hst : s.st = .pay)
    (hj : s.j = BitVec.ofNat 64 (m * s.cfg.W)) (hacc : s.acc = 0) (hrx : s.rx = payload.drop (m * s.cfg.W))
    (hpayload : payload.length = s.len.toNat) (hfits : Fits s.cfg s.len) (hm : m * s.cfg.W < payload.length) :
    serveN ((payload.drop (m * s.cfg.W)).take s.cfg.W).length s = { s with
      st := .wr, j := BitVec.ofNat 64 (payload.take ((m + 1) * s.cfg.W)).length,
      crc := crcBytes s.crc ((payload.drop (m * s.cfg.W)).take s.cfg.W), rx := payload.drop ((m + 1) * s.cfg.W),
      wrAddr := writeAddr s.cfg s.addr m, wrData := writeValue s.cfg payload m } := by
  have hW := s.cfg.W_pos
  have hjn : s.j.toNat = m * s.cfg.W := by rw [hj]; exact Nat.mod_eq_of_lt (by have := s.len.isLt; omega)
  have hpos : payPos s = 0 := by rw [payPos, hjn]; exact Nat.mul_mod_left _ _
  have haddr : fit s.cfg (payAddr s) = writeAddr s.cfg s.addr m := by
    rw [payAddr, hpos, hj, ← fit_add_ofNat]
    simp
  have hsize : ((payload.drop (m * s.cfg.W)).take s.cfg.W).length = min s.cfg.W (payload.length - m * s.cfg.W) := by
    rw [List.length_take, List.length_drop]
  have hcount : m * s.cfg.W + ((payload.drop (m * s.cfg.W)).take s.cfg.W).length =
      (payload.take ((m + 1) * s.cfg.W)).length := by
    rw [take_words_succ, List.length_append, List.length_take_of_le hm.le]
  have hsplit : s.rx = (payload.drop (m * s.cfg.W)).take s.cfg.W ++ payload.drop ((m + 1) * s.cfg.W) := by
    rw [hrx, Nat.succ_mul, ← List.drop_drop, List.take_append_drop]
  rw [serveN_word _ _ hst hsplit (List.length_pos_iff.mp (by omega)) hfits (by omega) (by omega) (by omega), hjn, hpos,
    hcount, State.issueWrite]
  simp [haddr, writeValue, hacc]

/-! ### From write to write -/

/-- The state of a DATA packet, begun in `s`, whose write number `m` stands pending: the words before it are in memory,
its own bytes are taken, and the bytes after them are with the transport. -/
def State.atWrite (s : State) (len addr : Word) (payload : List Byte) (m : Nat) : State :=
  { s with
    st := .wr, win := magic, k := 0, len := len, addr := addr, acc := 0,
    j := BitVec.ofNat 64 (payload.take ((m + 1) * s.cfg.W)).length,
    crc := crcBytes (crcMagic s.cfg.endian)
      (wire s.cfg.endian s.cfg.W len ++ wire s.cfg.endian s.cfg.W addr ++ payload.take ((m + 1) * s.cfg.W)),
    wrAddr := writeAddr s.cfg addr m, wrData := writeValue s.cfg payload m,
    mem := memWriteWords s.cfg addr payload m s.mem, rx := payload.drop ((m + 1) * s.cfg.W),
    out := s.out ++ (List.range m).map fun i => .write (writeAddr s.cfg addr i) (writeValue s.cfg payload i) }

section
variable {s : State} {len addr : Word} {payload : List Byte} {m : Nat}

/-- The first write's state, as a frame's serving reaches it, is that of write number 0. -/
theorem atFirstWrite_eq_atWrite :
    s.atFirstWrite len addr (payload.take s.cfg.W) (payload.drop s.cfg.W) = s.atWrite len addr payload 0 := by
  have hfit : fit s.cfg addr = writeAddr s.cfg addr 0 := by simp [← fit_add_ofNat]
  simp [State.atFirstWrite, State.atWrite, State.issueWrite, hfit, writeValue, memWriteWords]

variable (hpayload : payload.length = len.toNat)
include hpayload

/-- At the last write, and at no other, every payload byte has been counted (R180, R183). -/
theorem atWrite_j_eq_len_iff : (s.atWrite len addr payload m).j = len ↔ wordCount s.cfg payload ≤ m + 1 := by
  have hcount : (s.atWrite len addr payload m).j.toNat = min ((m + 1) * s.cfg.W) len.toNat := by
    simp only [State.atWrite, List.length_take, hpayload, BitVec.toNat_ofNat]
    exact Nat.mod_eq_of_lt ((min_le_right _ _).trans_lt len.isLt)
  rw [wordCount_le_iff, hpayload, ← BitVec.toNat_inj, hcount, min_eq_right_iff]

variable (hacc : addr.toNat % s.cfg.W = 0 ∨ s.cfg.misaligned = .split)
include hacc

/-- The memory accepts each write of the packet: each is aligned, or the platform splits (R66). After the last the block
acknowledges, after another it takes more payload (R183). -/
theorem serve_atWrite :
    serve (s.atWrite len addr payload m) = { (s.atWrite len addr payload m).acceptWrite with
      st := if wordCount s.cfg payload ≤ m + 1 then .ack else .pay } := by
  have hn : neverAccepted (s.atWrite len addr payload m) = false :=
    neverAccepted_eq_false (s := s.atWrite len addr payload m) (hacc.imp_left fun hal => writeAddr_aligned hal m)
  have hlast := atWrite_j_eq_len_iff (s := s) (addr := addr) (m := m) hpayload
  rw [serve_of_wr rfl]
  obtain ⟨hj, he⟩ | ⟨hj, he⟩ := wrRule_cases hn
  · rw [he, if_pos (hlast.mp hj)]
    rfl
  · rw [he, if_neg fun h => hj (hlast.mpr h)]

variable (hfits : Fits s.cfg len)
include hfits

/-- From one write to the next: it is performed, and the bytes of the next word are taken (R183, R184). -/
theorem serveN_atWrite_succ (hm : m + 1 < wordCount s.cfg payload) :
    serveN (1 + ((payload.drop ((m + 1) * s.cfg.W)).take s.cfg.W).length) (s.atWrite len addr payload m) =
      s.atWrite len addr payload (m + 1) := by
  have hlt : (m + 1) * s.cfg.W < payload.length := lt_wordCount_iff.mp hm
  have hwritten : serveN 1 (s.atWrite len addr payload m) =
      { (s.atWrite len addr payload m).acceptWrite with st := .pay } := by
    rw [serveN, serveN, serve_atWrite hpayload hacc, if_neg (Nat.not_le.mpr hm)]
  have hj : (s.atWrite len addr payload m).j = BitVec.ofNat 64 ((m + 1) * s.cfg.W) := by
    rw [State.atWrite, List.length_take_of_le hlt.le]
  rw [serveN_add, hwritten]
  refine (serveN_payloadWord (s := { (s.atWrite len addr payload m).acceptWrite with st := .pay }) rfl hj rfl rfl
    hpayload hfits hlt).trans ?_
  simp [State.atWrite, take_words_succ payload (m + 1), crcBytes_append, memWriteWords, List.range_succ]

/-- From the start of the packet to each write: a step for each byte taken and each write performed before it. -/
theorem serveN_frame_atWrite (hstart : s.st = .seek ∧ s.win = 0 ∨ s.st = .chain ∧ s.k = 0) (haddr : Fits s.cfg addr)
    (hm : m < wordCount s.cfg payload) :
    serveN (4 + (s.cfg.W + s.cfg.W) + (payload.take ((m + 1) * s.cfg.W)).length + m)
      { s with rx := frameBytes s.cfg len addr payload } = s.atWrite len addr payload m := by
  induction m with
  | zero =>
    have hW := s.cfg.W_pos
    have hpos : 0 < payload.length := by simpa using lt_wordCount_iff.mp hm
    have hsize : (payload.take s.cfg.W).length = min s.cfg.W payload.length := List.length_take
    rw [Nat.add_zero, Nat.zero_add, Nat.one_mul, ← atFirstWrite_eq_atWrite]
    exact serveN_firstWrite (s := { s with rx := frameBytes s.cfg len addr payload }) hstart
      (by rw [List.take_append_drop]) hfits haddr (List.length_pos_iff.mp (by omega))
      (by rw [hsize]; exact min_le_left _ _) (by omega) (by rw [hsize, ← hpayload]; exact min_choice _ _)
  | succ m ih =>
    have hsum : 4 + (s.cfg.W + s.cfg.W) + (payload.take ((m + 1 + 1) * s.cfg.W)).length + (m + 1) =
        4 + (s.cfg.W + s.cfg.W) + (payload.take ((m + 1) * s.cfg.W)).length + m +
          (1 + ((payload.drop ((m + 1) * s.cfg.W)).take s.cfg.W).length) := by
      rw [take_words_succ payload (m + 1), List.length_append]
      omega
    rw [hsum, serveN_add, ih (Nat.lt_of_succ_lt hm), serveN_atWrite_succ hpayload hacc hfits hm]

end

/-! ### The whole packet -/

/-- The running CRC over a frame from its marker on is that over the bytes after the marker from the preset (R131). -/
theorem crcBytes_frameBytes (c : Cfg) (len addr : Word) (payload : List Byte) :
    crcBytes crcInit (frameBytes c len addr payload) =
      crcBytes (crcMagic c.endian) (wire c.endian c.W len ++ wire c.endian c.W addr ++ payload) := by
  simp only [frameBytes, List.append_assoc, crcBytes_append, crcMagic]

/-- The standard CRC-32 of a frame is the complement of the running CRC over it (R135, R136). -/
theorem standardCrc32_frameBytes (c : Cfg) (len addr : Word) (payload : List Byte) :
    standardCrc32 (frameBytes c len addr payload) =
      ~~~crcBytes (crcMagic c.endian) (wire c.endian c.W len ++ wire c.endian c.W addr ++ payload) := by
  rw [← crcBytes_frameBytes, ← crcOfBytesIsStandardCrc32.1]
  rfl

/-- The state a DATA packet begun in `s` ends in. -/
def State.afterData (s : State) (len addr : Word) (payload : List Byte) : State :=
  { s with
    st := .chain, win := 0, k := 0, len := len, addr := addr, j := len, acc := 0,
    crc := ~~~standardCrc32 (frameBytes s.cfg len addr payload),
    wrAddr := writeAddr s.cfg addr (wordCount s.cfg payload - 1),
    wrData := writeValue s.cfg payload (wordCount s.cfg payload - 1),
    mem := memWriteWords s.cfg addr payload (wordCount s.cfg payload) s.mem,
    out := s.out ++ packetWrites s.cfg addr payload ++
      ackOutputs (standardCrc32 (frameBytes s.cfg len addr payload)) }

section
variable {s : State} {len addr : Word} {payload : List Byte} (hlen : len ≠ 0) (hpayload : payload.length = len.toNat)
  (hacc : addr.toNat % s.cfg.W = 0 ∨ s.cfg.misaligned = .split)
include hlen hpayload hacc

/-- The last write performed, the block gives the acknowledgment and ends the packet (R183, R200, R201). -/
theorem serveN_lastWrite (hrx : s.rx = []) {n : Nat} (hn : wordCount s.cfg payload = n + 1) :
    serveN (1 + 4) (s.atWrite len addr payload n) = s.afterData len addr payload := by
  have hall : payload.length ≤ (n + 1) * s.cfg.W := wordCount_le_iff.mp hn.le
  have hwritten : serveN 1 (s.atWrite len addr payload n) =
      { (s.atWrite len addr payload n).acceptWrite with st := .ack } := by
    rw [serveN, serveN, serve_atWrite hpayload hacc, if_pos hn.le]
  rw [serveN_add, hwritten, serveN_ack rfl rfl, State.ackDone, if_neg (by exact hlen)]
  simp [State.atWrite, State.afterData, List.take_of_length_le hall, List.drop_of_length_le hall, hpayload, hrx,
    hn, packetWrites, memWriteWords, List.range_succ, standardCrc32_frameBytes]

/-- A DATA packet sent at the start of a packet is served to its end, after which nothing is left to do. -/
theorem sendBytes_data (hfits : Fits s.cfg len) (haddr : Fits s.cfg addr) (hstart : AtPacketStart s) :
    sendBytes (frameBytes s.cfg len addr payload) s = s.afterData len addr payload := by
  obtain ⟨hbegin, hrx⟩ := hstart
  have hpos : 0 < payload.length := by bv_omega
  obtain ⟨n, hn⟩ : ∃ n, wordCount s.cfg payload = n + 1 :=
    Nat.exists_eq_succ_of_ne_zero (lt_wordCount_iff.mpr (by omega)).ne'
  have hlast : n < wordCount s.cfg payload := by omega
  have hle : n ≤ payload.length :=
    (Nat.le_mul_of_pos_right n s.cfg.W_pos).trans (lt_wordCount_iff.mp hlast).le
  have hreach := serveN_frame_atWrite hpayload hacc hfits hbegin haddr hlast
  obtain ⟨d, hd⟩ : ∃ d, serveSteps (s.rx.length + (frameBytes s.cfg len addr payload).length) =
      4 + (s.cfg.W + s.cfg.W) + (payload.take ((n + 1) * s.cfg.W)).length + n + (1 + 4) + d := by
    have hsize : (frameBytes s.cfg len addr payload).length = 4 + s.cfg.W + s.cfg.W + payload.length := by
      simp [frameBytes, Nat.add_assoc]
    have htake : (payload.take ((n + 1) * s.cfg.W)).length ≤ payload.length := List.length_take_le' _ _
    exact Nat.exists_eq_add_of_le (by simp only [serveSteps, hsize]; omega)
  rw [sendBytes, hd, serveN_add, serveN_add, hrx, List.nil_append, hreach,
    serveN_lastWrite hlen hpayload hacc hrx hn, serveN_of_chain_empty (s := s.afterData len addr payload) rfl hrx]

end

/-- Settles O22: the packet instruction sends its frame, `sendBytes_data` is the state it ends in, and memory after the
packet's writes is read by `read_memWriteWords`. -/
theorem dataPacketIsLoadedAndAcknowledged : Obligations.DataPacketIsLoadedAndAcknowledged := by
  intro s len addr payload hwf hstart hacc
  obtain ⟨hlen, hpayload, hfits, haddr⟩ := wellFormed_pktData.mp hwf
  have hspace : wordCount s.cfg payload * s.cfg.W ≤ 2 ^ s.cfg.bits := wordCount_mul_W_le (hpayload ▸ hfits)
  refine ⟨memWriteWords s.cfg addr payload (wordCount s.cfg payload) s.mem, ?_,
    fun i hi => read_memWriteWords hspace hi, fun x hx => read_memWriteWords_of_ne hx⟩
  rw [exec_of_frame rfl]
  exact congrArg Host.Outcome.next (sendBytes_data hlen hpayload hacc hfits haddr hstart)

end Sys2Proof.Machine
end

section
/-! Acknowledge and hand-off (R200 to R205): the branches of `ACK.TX`, the restart, and the ENTRY packet as one run of
serving. -/

namespace Sys2Proof.Machine

/-! ### Restart -/

/-- `restart` decides the event of an edge only where no transfer completes (R225). -/
theorem event_restart_cases (p : Ports) (s : State) :
    event { p with restart := true } s = event { p with restart := false } s ∨
    (event { p with restart := true } s = some .restart ∧ event { p with restart := false } s = none) := by
  have hrx : rxDone { p with restart := true } s = rxDone { p with restart := false } s := rfl
  have htx : txDone { p with restart := true } s = txDone { p with restart := false } s := rfl
  have hmem : memDone { p with restart := true } s = memDone { p with restart := false } s := rfl
  unfold event
  rw [hrx, htx, hmem]
  split
  · exact .inl rfl
  · split
    · exact .inl rfl
    · split
      · exact .inl rfl
      · exact .inr ⟨rfl, rfl⟩

/-- Outside `DONE` the selector of `restart` picks no step (R98). -/
theorem decodeStep_restart_of_ne_done {st : Fsm} (hst : st ≠ .done) (b : Byte) :
    ∃ e, decodeStep (selector st .restart) b = .error e := by
  rw [decodeStep_selector]
  cases st with
  | done => exact absurd rfl hst
  | _ => exact ⟨_, rfl⟩

/-- Outside `DONE` a clock edge does not look at `restart` (R205). -/
theorem fetchEdge_restart_of_ne_done (p : Ports) {s : State} (hst : s.st ≠ .done) :
    fetchEdge { p with restart := true } s = fetchEdge { p with restart := false } s := by
  have hreset : resetEdge { p with restart := true } s.noteFault = resetEdge { p with restart := false } s.noteFault :=
    rfl
  have hoffered : offered { p with restart := true } s = offered { p with restart := false } s := rfl
  unfold fetchEdge
  rw [hreset, hoffered]
  obtain hsame | ⟨hrestart, hnone⟩ := event_restart_cases p s.noteFault
  · rw [hsame]
  · obtain ⟨e, he⟩ := decodeStep_restart_of_ne_done hst ((offered { p with restart := false } s).getD 0)
    rw [hrestart, hnone]
    simp only [he]

/-- Settles O21: the edge is the next step, and `fetchEdge_restart_of_ne_done` says it does not look at `restart`. -/
theorem restartOutsideDoneIsIgnored : Obligations.RestartOutsideDoneIsIgnored := by
  intro s p rest hst
  rw [step_of_edge rfl, step_of_edge rfl]
  exact congrArg Fetched.outcome (fetchEdge_restart_of_ne_done p hst)

/-- Settles O20: in `DONE` the instruction is its step rule. -/
theorem doneRestartStartsSeek : Obligations.DoneRestartStartsSeek := fun _ hst => inState_of_eq hst

/-! ### The last acknowledgment byte -/

/-- From byte 3 on an acknowledgment byte is the packet's last, and the terminal check follows it (R200, R201). -/
theorem ackRule_last {s : State} (hk : ¬ s.k.toNat < 3) : ackRule s = (s.giveTx (txData s)).ackDone := if_neg hk

theorem exec_ackTx {s : State} (hst : s.st = .ack) : exec .ackTx s = .next (ackRule s) := inState_of_eq hst

/-- Settles O18: the byte before the last, and after the last the two answers of the terminal check. -/
theorem ackTxGivesByteAndEndsPacket : Obligations.AckTxGivesByteAndEndsPacket := by
  intro s hst t
  rw [exec_ackTx hst]
  refine ⟨fun hk => congrArg _ (ackRule_of_lt hk), fun hk hlen => congrArg _ ?_, fun hk hlen => congrArg _ ?_⟩
  · rw [ackRule_last hk, State.ackDone, if_neg (by exact hlen)]
    rfl
  · rw [ackRule_last hk, State.ackDone, if_pos (by exact hlen)]
    rfl

/-! ### The ENTRY packet -/

/-- The marker and the header of an ENTRY packet start its acknowledgment (R90, R153). -/
theorem serveN_entryHeader {s : State} {addr : Word} (hstart : s.st = .seek ∧ s.win = 0 ∨ s.st = .chain ∧ s.k = 0)
    (hrx : s.rx = frameBytes s.cfg 0 addr []) (haddr : Fits s.cfg addr) :
    serveN (4 + (s.cfg.W + s.cfg.W)) s = { s with
      st := .ack, win := magic, k := 0, len := 0, addr := addr, rx := [],
      crc := ~~~standardCrc32 (frameBytes s.cfg 0 addr []) } := by
  have hlen : Fits s.cfg 0 := Nat.two_pow_pos _
  rw [serveN_frameHeader hstart hrx hlen haddr, State.hdrDone, if_pos rfl, standardCrc32_frameBytes]
  simp

/-- An ENTRY packet sent at the start of a packet is served to its end, after which nothing is left to do (R202). -/
theorem sendBytes_entry {s : State} {addr : Word} (haddr : Fits s.cfg addr) (hstart : AtPacketStart s) :
    sendBytes (frameBytes s.cfg 0 addr []) s = { s with
      st := .done, win := magic, k := 3, len := 0, addr := addr, entry := addr, done := true,
      crc := ~~~standardCrc32 (frameBytes s.cfg 0 addr []),
      out := s.out ++ ackOutputs (standardCrc32 (frameBytes s.cfg 0 addr [])) } := by
  obtain ⟨hbegin, hrx⟩ := hstart
  obtain ⟨d, hd⟩ : ∃ d, serveSteps (s.rx.length + (frameBytes s.cfg 0 addr []).length) =
      4 + (s.cfg.W + s.cfg.W) + 4 + d := by
    have hsize : (frameBytes s.cfg 0 addr []).length = 4 + s.cfg.W + s.cfg.W := by simp [frameBytes, Nat.add_assoc]
    exact Nat.exists_eq_add_of_le (by simp only [serveSteps, hsize]; omega)
  have hheader := serveN_entryHeader (s := { s with rx := frameBytes s.cfg 0 addr [] }) hbegin rfl haddr
  rw [sendBytes, hd, hrx, List.nil_append, serveN_add, serveN_add, hheader, serveN_ack rfl rfl, State.ackDone,
    if_pos rfl, serveN_of_done rfl]
  simp [State.terminate]

/-- Settles O23: the packet instruction sends its frame, and `sendBytes_entry` is the state it ends in. -/
theorem entryPacketHandsOutAddress : Obligations.EntryPacketHandsOutAddress := by
  intro s addr hwf hstart
  rw [exec_of_frame rfl]
  exact congrArg Host.Outcome.next (sendBytes_entry (wellFormed_pktEntry.mp hwf) hstart)

end Sys2Proof.Machine
end

section
/-! Holds and model faults: every step answers (R220), a clock edge at which the agent holds changes no register (R223,
R234), and in the two states with a model fault every edge without `rst` is such an edge (R221, R222). -/

namespace Sys2Proof.Machine

/-- Settles O30: `step_keepsHistory` names the next state. -/
theorem stepAlwaysAnswersNext : Obligations.StepAlwaysAnswersNext := fun s =>
  (step_keepsHistory s).imp fun _ h => h.1

/-! ### The record of a fault -/

theorem st_of_neverAccepted {s : State} (h : neverAccepted s = true) : s.st = .wr := by
  by_contra hst
  simp [neverAccepted_of_ne hst] at h

theorem noteFault_of_reserved {s : State} (hst : s.st = .reserved) :
    s.noteFault = { s with faults := onRecord s.faults .illegalState } := by
  rw [State.noteFault, if_pos hst, record_eq, onRecord]

theorem noteFault_of_neverAccepted {s : State} (h : neverAccepted s = true) :
    s.noteFault = { s with faults := onRecord s.faults (.misalignedWrite s.wrAddr) } := by
  have h7 : s.st ≠ .reserved := by simp [st_of_neverAccepted h]
  rw [State.noteFault, if_neg h7, if_pos h, record_eq, onRecord]

theorem noteFault_of_accepted {s : State} (h7 : s.st ≠ .reserved) (hn : neverAccepted s = false) : s.noteFault = s := by
  rw [State.noteFault, if_neg h7, hn, if_neg Bool.false_ne_true]

theorem noteFault_with_inputs (s : State) (is : List Input) :
    State.noteFault { s with inputs := is } = { s.noteFault with inputs := is } := by
  obtain ⟨hst, -⟩ | ⟨-, hn, -⟩ | ⟨h7, hn, -⟩ := noteFault_cases s
  · rw [noteFault_of_reserved hst, noteFault_of_reserved (by exact hst)]
  · rw [noteFault_of_neverAccepted hn, noteFault_of_neverAccepted (by exact hn)]
  · rw [noteFault_of_accepted h7 hn, noteFault_of_accepted (by exact h7) (by exact hn)]

/-! ### An edge at which the agent holds -/

/-- At an edge with the ports `p` the agent that `s` waits for does not lift its hold, by the table of R223. -/
structure AgentHolds (p : Ports) (s : State) : Prop where
  rx      : rxReady s = true → p.rxValid = false ∨ s.rx = []
  mem     : s.st = .wr → p.memReady = false ∨ neverAccepted s = true
  tx      : s.st = .ack → p.txReady = false
  restart : s.st = .done → p.restart = false

theorem agentHolds_idlePorts (s : State) : AgentHolds idlePorts s :=
  ⟨fun _ => .inl rfl, fun _ => .inl rfl, fun _ => rfl, fun _ => rfl⟩

theorem agentHolds_of_reserved {s : State} (hst : s.st = .reserved) (p : Ports) : AgentHolds p s := by
  constructor <;> simp [hst]

theorem agentHolds_of_neverAccepted {s : State} (h : neverAccepted s = true) (p : Ports) : AgentHolds p s := by
  have hst := st_of_neverAccepted h
  constructor <;> simp [hst, h]

/-- While the agent holds, an edge without `rst` changes nothing but the record of a fault. -/
theorem fetchEdge_of_agentHolds {p : Ports} {s : State} (hrst : p.rst = false) (h : AgentHolds p s) :
    (fetchEdge p s).outcome = .next s.noteFault := by
  obtain ⟨hreset, -⟩ | ⟨-, ⟨b, r, hbytes, hv, hrule⟩ | ⟨hst, hready, hacc, -⟩ | ⟨hst, hready, -⟩ | ⟨hst, hrestart, -⟩ |
    he⟩ := edge_cases p s
  · simp [hrst] at hreset
  · have hready : rxReady s = true := by
      obtain ⟨hst, -⟩ | ⟨hst, -⟩ | ⟨hst, -⟩ | ⟨hst, -⟩ := hrule <;> simp [hst]
    simpa [hbytes, hv] using h.rx hready
  · simpa [hready, hacc] using h.mem hst
  · simpa [hready] using h.tx hst
  · simpa [hrestart] using h.restart hst
  · exact he

theorem step_of_agentHolds {p : Ports} {s : State} {rest : List Input} (hi : s.inputs = .edge p :: rest)
    (hrst : p.rst = false) (h : AgentHolds p s) : step s = .next { s.noteFault with inputs := rest } := by
  have hrest : AgentHolds p { s with inputs := rest } := ⟨h.rx, h.mem, h.tx, h.restart⟩
  rw [step_of_edge hi, fetchEdge_of_agentHolds hrst hrest, noteFault_with_inputs]

/-- A step with no input left is an edge at which the agent holds, whichever it is (log 6). -/
theorem step_of_no_input {s : State} (hi : s.inputs = []) : step s = .next s.noteFault := by
  rw [step_eq, fetch, hi]
  exact fetchEdge_of_agentHolds rfl (agentHolds_idlePorts s)

/-- Settles O33: the agent holds, and a legal state with no refused request has no model fault to record. -/
theorem holdKeepsEveryRegister : Obligations.HoldKeepsEveryRegister := by
  intro s h7 hacc
  have hn : neverAccepted s = false := by
    by_cases hst : s.st = .wr
    · exact neverAccepted_eq_false (hacc hst)
    · exact neverAccepted_of_ne hst
  refine ⟨fun hi => ?_, fun p rest hi hrst hrx hmem htx hrestart => ?_⟩
  · rw [step_of_no_input hi, noteFault_of_accepted h7 hn]
  · have hhold : AgentHolds p s := ⟨fun h => hrx (rxReady_iff.mp h), fun h => .inl (hmem h), htx, hrestart⟩
    rw [step_of_agentHolds hi hrst hhold, noteFault_of_accepted h7 hn]

/-! ### The two states with a model fault -/

/-- Settles O17: no event is selected in code 7, so every edge without `rst` is a hold. -/
theorem reservedStateRecordsIllegalState : Obligations.ReservedStateRecordsIllegalState := by
  refine ⟨decodeStep_selector .reserved, fun s hst => ⟨fun hi => ?_, fun p rest hi hrst => ?_⟩⟩
  · rw [step_of_no_input hi, noteFault_of_reserved hst]
  · rw [step_of_agentHolds hi hrst (agentHolds_of_reserved hst p), noteFault_of_reserved hst]

/-- No transfer completes on a request the memory refuses, so a reset edge has no far side there (R251). -/
theorem farSide_of_neverAccepted {s : State} (h : neverAccepted s = true) (p : Ports) : farSide p s = s := by
  have hst := st_of_neverAccepted h
  simp [farSide, rxDone, rxReady, txDone, txValid, memDone, hst, h]

theorem step_of_reset {p : Ports} {s : State} {rest : List Input} (hi : s.inputs = .edge p :: rest)
    (hrst : p.rst = true) : step s = .next (resetEdge p { s.noteFault with inputs := rest }) := by
  rw [step_of_edge hi, fetchEdge, if_pos hrst, Fetched.outcome, noteFault_with_inputs]

/-- Settles O16: every edge without `rst` is a hold there, and `rst` clears the registers but not the record. -/
theorem misalignedWriteIsRecordedAndSticks : Obligations.MisalignedWriteIsRecordedAndSticks := by
  intro s hst hfault hmis fs
  have hn : neverAccepted s = true := neverAccepted_eq_true hst hmis hfault
  refine ⟨?_, fun hi => ?_, fun p rest hi => ⟨fun hrst => ?_, fun hrst => ?_⟩⟩
  · rw [exec_wrMem hst, wrRule_of_neverAccepted hn, noteFault_of_neverAccepted hn]
  · rw [step_of_no_input hi, noteFault_of_neverAccepted hn]
  · rw [step_of_agentHolds hi hrst (agentHolds_of_neverAccepted hn p), noteFault_of_neverAccepted hn]
  · rw [step_of_reset hi hrst, noteFault_of_neverAccepted hn, resetEdge, farSide_of_neverAccepted (by exact hn)]
    rfl

end Sys2Proof.Machine
end

section
/-! Serving the block (log 7): each step of it is a clock edge at which every agent is ready, and it comes to an end. -/

namespace Sys2Proof.Machine

/-! ### Serving does not look at the inputs -/

theorem seekRule_with_inputs (b : Byte) (s : State) (is : List Input) :
    seekRule b { s with inputs := is } = { seekRule b s with inputs := is } := by
  unfold seekRule
  dsimp only
  split_ifs <;> rfl

theorem chainRule_with_inputs (b : Byte) (s : State) (is : List Input) :
    chainRule b { s with inputs := is } = { chainRule b s with inputs := is } := by
  unfold chainRule
  dsimp only
  split_ifs <;> rfl

theorem hdrRule_with_inputs (b : Byte) (s : State) (is : List Input) :
    hdrRule b { s with inputs := is } = { hdrRule b s with inputs := is } := by
  by_cases hlast : s.k.toNat = 2 * s.cfg.W - 1
  · rw [hdrRule_last b hlast, hdrRule_last b (by exact hlast), State.hdrDone, State.hdrDone]
    dsimp only
    split_ifs <;> rfl
  · by_cases hk : s.k.toNat < s.cfg.W
    · rw [hdrRule_length b hk, hdrRule_length b (by exact hk)]
    · have hW := Nat.le_of_not_lt hk
      rw [hdrRule_address b hW hlast, hdrRule_address b (by exact hW) (by exact hlast)]

theorem payRule_with_inputs (b : Byte) (s : State) (is : List Input) :
    payRule b { s with inputs := is } = { payRule b s with inputs := is } := by
  by_cases h : payPos s = s.cfg.W - 1 ∨ fit s.cfg (s.j + 1) = s.len
  · rw [payRule_issue b h, payRule_issue b (by exact h)]
    rfl
  · obtain ⟨hp, hj⟩ := not_or.mp h
    rw [payRule_gather b hp hj, payRule_gather b (by exact hp) (by exact hj)]
    rfl

theorem wrRule_with_inputs (s : State) (is : List Input) :
    wrRule { s with inputs := is } = { wrRule s with inputs := is } := by
  cases hn : neverAccepted s with
  | true => rw [wrRule_of_neverAccepted hn, wrRule_of_neverAccepted (by exact hn), noteFault_with_inputs]
  | false =>
    rw [wrRule_of_accepted hn, wrRule_of_accepted (by exact hn)]
    dsimp only
    split_ifs <;> rfl

theorem ackDone_with_inputs (s : State) (is : List Input) :
    State.ackDone { s with inputs := is } = { s.ackDone with inputs := is } := by
  unfold State.ackDone
  dsimp only
  split_ifs <;> rfl

theorem ackRule_with_inputs (s : State) (is : List Input) :
    ackRule { s with inputs := is } = { ackRule s with inputs := is } := by
  by_cases hk : s.k.toNat < 3
  · rw [ackRule_of_lt hk, ackRule_of_lt (by exact hk)]
    rfl
  · rw [ackRule_last hk, ackRule_last (by exact hk)]
    exact ackDone_with_inputs (s.giveTx (txData s)) is

theorem serve_with_inputs (s : State) (is : List Input) :
    serve { s with inputs := is } = { serve s with inputs := is } := by
  have hrx {rule : Byte → State → State} (hrule : ∀ b t, rule b { t with inputs := is } = { rule b t with inputs := is }) :
      serveRx rule { s with inputs := is } = { serveRx rule s with inputs := is } := by
    unfold serveRx
    dsimp only
    split
    · rfl
    · exact hrule _ s.dropRx
  unfold serve
  dsimp only
  split
  · exact hrx (seekRule_with_inputs · · is)
  · exact hrx (hdrRule_with_inputs · · is)
  · exact hrx (payRule_with_inputs · · is)
  · exact wrRule_with_inputs s is
  · exact ackRule_with_inputs s is
  · exact hrx (chainRule_with_inputs · · is)
  · rfl
  · exact noteFault_with_inputs s is

/-! ### A ready edge is a step of serving -/

/-- With every agent ready, the block's next transfer completes, or its agent holds all the same: the transport is empty,
the memory refuses, or there is no such agent. -/
theorem readyPorts_cases (s : State) :
    (∃ b r, s.rx = b :: r ∧ rxReady s = true) ∨ (s.st = .wr ∧ neverAccepted s = false) ∨ s.st = .ack ∨
    AgentHolds readyPorts s := by
  by_cases hwr : s.st = .wr ∧ neverAccepted s = false
  · exact .inr (.inl hwr)
  by_cases hack : s.st = .ack
  · exact .inr (.inr (.inl hack))
  have hhold (hrx : rxReady s = true → s.rx = []) : AgentHolds readyPorts s :=
    ⟨fun h => .inr (hrx h), fun h => .inr (by simpa [h] using hwr), fun h => absurd h hack, fun _ => rfl⟩
  cases hbytes : s.rx with
  | nil => exact .inr (.inr (.inr (hhold fun _ => hbytes)))
  | cons b r =>
    by_cases hready : rxReady s = true
    · exact .inl ⟨b, r, rfl, hready⟩
    · exact .inr (.inr (.inr (hhold fun h => absurd h hready)))

theorem serve_of_agentHolds {s : State} (h : AgentHolds readyPorts s) : serve s = s.noteFault := by
  obtain ⟨b, r, hbytes, hrule⟩ | ⟨hst, hn, -⟩ | ⟨hst, -⟩ | he := serve_cases s
  · have hready : rxReady s = true := by
      obtain ⟨hst, -⟩ | ⟨hst, -⟩ | ⟨hst, -⟩ | ⟨hst, -⟩ := hrule <;> simp [hst]
    simpa [hbytes, readyPorts] using h.rx hready
  · simpa [hn, readyPorts] using h.mem hst
  · simpa [readyPorts] using h.tx hst
  · exact he

/-- An edge at which every agent is ready serves the block once (R98, R223). -/
theorem step_of_readyPorts {s : State} {rest : List Input} (hi : s.inputs = .edge readyPorts :: rest) :
    step s = .next { serve s with inputs := rest } := by
  obtain ⟨b, r, hbytes, hready⟩ | ⟨hst, hn⟩ | hst | hhold := readyPorts_cases s
  · obtain ⟨hseek, hhdr, hpay, hchain⟩ := (edgeRunsTheStatesInstruction s readyPorts rest hi rfl).1 b r hbytes rfl
    obtain hst | hst | hst | hst := rxReady_iff.mp hready
    · rw [hseek hst, serve_of_seek hst hbytes, ← seekRule_with_inputs]
      exact inState_of_eq hst
    · rw [hhdr hst, serve_of_hdr hst hbytes, ← hdrRule_with_inputs]
      exact inState_of_eq hst
    · rw [hpay hst, serve_of_pay hst hbytes, ← payRule_with_inputs]
      exact inState_of_eq hst
    · rw [hchain hst, serve_of_chain hst hbytes, ← chainRule_with_inputs]
      exact inState_of_eq hst
  · have hdone : memDone readyPorts s = true := memDone_iff.mpr ⟨hst, rfl, hn⟩
    rw [step_of_event hi rfl (event_of_memDone hdone) (by rw [hst, decodeStep_selector]), serve_of_wr hst,
      ← wrRule_with_inputs]
    exact inState_of_eq hst
  · rw [step_of_event hi rfl (event_of_txDone hst rfl) (by rw [hst, decodeStep_selector]), serve_of_ack hst,
      ← ackRule_with_inputs]
    exact inState_of_eq hst
  · rw [step_of_agentHolds hi rfl hhold, serve_of_agentHolds hhold]

theorem run_readyPorts (n : Nat) (s : State) (is : List Input) :
    Host.Core.run Sys2Proof.core n { s with inputs := List.replicate n (.edge readyPorts) ++ is } =
      .next (serveN n { s with inputs := is }) := by
  induction n generalizing s with
  | zero => rfl
  | succ n ih =>
    have hstep : step { s with inputs := List.replicate (n + 1) (.edge readyPorts) ++ is } =
        .next { serve s with inputs := List.replicate n (.edge readyPorts) ++ is } := by
      rw [step_of_readyPorts rfl, serve_with_inputs]
      rfl
    rw [run_succ_of_step n hstep, ih, serveN, serve_with_inputs s is]

/-- Settles O26: the steps of `sendBytes` are ready edges, and `exec_of_frame` is the packet instruction. -/
theorem packetIsRunOfReadyEdges : Obligations.PacketIsRunOfReadyEdges :=
  ⟨fun s bytes => ⟨_, run_readyPorts _ { s with rx := s.rx ++ bytes } s.inputs⟩, fun s _ h => exec_of_frame h s⟩

/-! ### Serving comes to an end -/

@[simp] theorem seekRule_rx (b : Byte) (s : State) : (seekRule b s).rx = s.rx := by
  obtain ⟨-, h⟩ | ⟨-, h⟩ := seekRule_cases b s <;> rw [h]; rfl

@[simp] theorem chainRule_rx (b : Byte) (s : State) : (chainRule b s).rx = s.rx := by
  obtain ⟨-, h⟩ | ⟨-, -, h⟩ | ⟨-, -, h⟩ := chainRule_cases b s <;> rw [h] <;> rfl

@[simp] theorem ackRule_rx (s : State) : (ackRule s).rx = s.rx := by
  obtain ⟨t, rfl, ⟨-, h⟩ | ⟨-, -, h⟩ | ⟨-, -, h⟩⟩ := ackRule_cases s <;> rw [h] <;> rfl

/-- The steps the block can be served before it needs another byte, as the comment at `serveSteps` counts them: a pending
write and four acknowledgment bytes, or what is left of these. -/
def openSteps (s : State) : Nat :=
  match s.st with
  | .wr => 5
  | .ack => 4 - min 3 s.k.toNat
  | _ => 0

theorem openSteps_of_wr {s : State} (hst : s.st = .wr) : openSteps s = 5 := by simp [openSteps, hst]

theorem openSteps_of_ack {s : State} (hst : s.st = .ack) : openSteps s = 4 - min 3 s.k.toNat := by
  simp [openSteps, hst]

theorem openSteps_of_ne {s : State} (hwr : s.st ≠ .wr) (hack : s.st ≠ .ack) : openSteps s = 0 := by
  unfold openSteps
  split
  · next h => exact absurd h hwr
  · next h => exact absurd h hack
  · rfl

theorem openSteps_le (s : State) : openSteps s ≤ 5 := by
  unfold openSteps
  split <;> omega

/-- The measure that serving decreases until there is nothing to do but record a fault: six for each byte to take, as in
`serveSteps`, and what is open before the first. -/
def workLeft (s : State) : Nat := 6 * s.rx.length + openSteps s

/-- A step rule that has taken a byte has less work left, whatever it leaves open. -/
theorem workLeft_lt_of_taken {s t : State} {b : Byte} {r : List Byte} (hbytes : s.rx = b :: r)
    (htaken : t.rx = s.dropRx.rx) : workLeft t < workLeft s := by
  have hopen := openSteps_le t
  simp only [workLeft, htaken, State.dropRx_rx, hbytes, List.tail_cons, List.length_cons]
  omega

theorem workLeft_wrRule_lt {s : State} (hst : s.st = .wr) (hn : neverAccepted s = false) :
    workLeft (wrRule s) < workLeft s := by
  have hopen : openSteps (wrRule s) < 5 := by
    obtain ⟨-, he⟩ | ⟨-, he⟩ := wrRule_cases hn <;> rw [he]
    · rw [openSteps_of_ack rfl]; omega
    · rw [openSteps_of_ne (by simp) (by simp)]; omega
  rw [workLeft, workLeft, wrRule_rx, openSteps_of_wr hst]
  omega

theorem workLeft_ackRule_lt {s : State} (hst : s.st = .ack) : workLeft (ackRule s) < workLeft s := by
  have hopen : openSteps (ackRule s) < 4 - min 3 s.k.toNat := by
    obtain ⟨t, rfl, ⟨hk, he⟩ | ⟨-, -, he⟩ | ⟨-, -, he⟩⟩ := ackRule_cases s <;> rw [he]
    · have hnext : (s.k + 1).toNat = s.k.toNat + 1 := by bv_omega
      rw [openSteps_of_ack (by exact hst), hnext]
      omega
    · rw [openSteps_of_ne (by simp) (by simp)]; omega
    · rw [openSteps_of_ne (by simp) (by simp)]; omega
  rw [workLeft, workLeft, ackRule_rx, openSteps_of_ack hst]
  omega

/-- A step of serving that records a fault, or has nothing to do, is the last that changes anything. -/
theorem serve_serve_of_noteFault {s : State} (h : serve s = s.noteFault) : serve (serve s) = serve s := by
  obtain ⟨hst, -⟩ | ⟨-, hn, -⟩ | ⟨-, -, hsame⟩ := noteFault_cases s
  · have hnote : serve s.noteFault = s.noteFault.noteFault := by simp [serve, hst]
    rw [h, hnote, noteFault_noteFault]
  · rw [h, serve_of_neverAccepted (by simpa using hn), noteFault_noteFault]
  · rw [hsame] at h
    rw [h, h]

/-- A step of serving leaves nothing to do, or less than before. -/
theorem serve_settles_or_works (s : State) : serve (serve s) = serve s ∨ workLeft (serve s) < workLeft s := by
  obtain ⟨b, r, hbytes, ⟨-, h⟩ | ⟨-, h⟩ | ⟨-, h⟩ | ⟨-, h⟩⟩ | ⟨hst, hn, h⟩ | ⟨hst, h⟩ | h := serve_cases s
  · exact .inr (workLeft_lt_of_taken hbytes (h ▸ seekRule_rx b _))
  · exact .inr (workLeft_lt_of_taken hbytes (h ▸ hdrRule_rx b _))
  · exact .inr (workLeft_lt_of_taken hbytes (h ▸ payRule_rx b _))
  · exact .inr (workLeft_lt_of_taken hbytes (h ▸ chainRule_rx b _))
  · exact .inr (h ▸ workLeft_wrRule_lt hst hn)
  · exact .inr (h ▸ workLeft_ackRule_lt hst)
  · exact .inl (serve_serve_of_noteFault h)

theorem serveN_of_serve_eq {s : State} (h : serve s = s) (n : Nat) : serveN n s = s :=
  serveN_induct (P := (· = s)) (fun _ ht => ht ▸ h) n s rfl

/-- More steps than the work left serve the block to the end. -/
theorem serve_serveN_of_workLeft_lt {n : Nat} {s : State} (h : workLeft s < n) : serve (serveN n s) = serveN n s := by
  induction n generalizing s with
  | zero => exact absurd h (Nat.not_lt_zero _)
  | succ n ih =>
    rw [serveN]
    obtain hsettled | hless := serve_settles_or_works s
    · rw [serveN_of_serve_eq hsettled, hsettled]
    · exact ih (by omega)

theorem serve_sendBytes (bytes : List Byte) (s : State) : serve (sendBytes bytes s) = sendBytes bytes s := by
  refine serve_serveN_of_workLeft_lt ?_
  have hopen := openSteps_le { s with rx := s.rx ++ bytes }
  simp only [workLeft, serveSteps, List.length_append]
  omega

/-- Settles O51: a ready edge is one more step of serving, and `sendBytes` takes steps enough. -/
theorem sentBytesAreServedToTheEnd : Obligations.SentBytesAreServedToTheEnd := by
  intro s bytes rest t
  rw [step_of_readyPorts rfl, serve_with_inputs, serve_sendBytes]

end Sys2Proof.Machine
end

section
/-! Detection of a corrupted byte (R262): the CRC byte update loses nothing, neither of the state nor of the byte, so a
difference once made stays to the end of the sequence. -/

namespace Sys2Proof.Machine

/-- The polynomial has bit 31, which a right shift by one never sets, so the bit shifted out stands there. -/
theorem crcBit_getLsbD_top (t : Word32) : (crcBit t).getLsbD 31 = t.getLsbD 0 := by
  have hpoly : polyR[31] = true := by decide
  rw [crcBit]
  cases t.getLsbD 0 with
  | true => simp [hpoly]
  | false => simp

/-- The top bit of the result tells whether the polynomial was added, so the other bits can be read back. -/
theorem crcBit_injective : Function.Injective crcBit := by
  intro t u h
  have hout : t.getLsbD 0 = u.getLsbD 0 := by rw [← crcBit_getLsbD_top, h, crcBit_getLsbD_top]
  have hrest : t >>> 1 = u >>> 1 := by
    rw [crcBit, crcBit, hout] at h
    split at h
    · exact (BitVec.xor_left_inj polyR).mp h
    · exact h
  refine BitVec.eq_of_getLsbD_eq fun i _ => ?_
  cases i with
  | zero => exact hout
  | succ i => simpa [Nat.add_comm] using congrArg (BitVec.getLsbD · i) hrest

theorem crc8_eq_iff {s s' : Word32} {b b' : Byte} :
    crc8 s b = crc8 s' b' ↔ s ^^^ b.setWidth 32 = s' ^^^ b'.setWidth 32 := by
  rw [crc8, crc8, crcBits_eq_iterate, crcBits_eq_iterate, (crcBit_injective.iterate 8).eq_iff]

theorem crc8_left_injective (b : Byte) : Function.Injective (crc8 · b) := fun _ _ h =>
  (BitVec.xor_left_inj _).mp (crc8_eq_iff.mp h)

theorem crc8_right_injective (s : Word32) : Function.Injective (crc8 s) := by
  intro b b' h
  have hwide : b.setWidth 32 = b'.setWidth 32 := (BitVec.xor_right_inj s).mp (crc8_eq_iff.mp h)
  simpa using congrArg (BitVec.setWidth 8) hwide

theorem crcBytes_left_injective (bs : List Byte) : Function.Injective (crcBytes · bs) := by
  induction bs with
  | nil => exact Function.injective_id
  | cons b bs ih => exact ih.comp (crc8_left_injective b)

/-- Settles O5: the wrong byte makes the states differ, and the bytes after it keep them apart. -/
theorem oneWrongByteChangesChecksum : Obligations.OneWrongByteChangesChecksum := by
  intro s before after b b' hne h
  rw [crcBytes_append, crcBytes_append] at h
  have hbyte : crc8 (crcBytes s before) b = crc8 (crcBytes s before) b' := crcBytes_left_injective after h
  exact hne (crc8_right_injective _ hbyte)

end Sys2Proof.Machine
end

section
/-! Reset (R250, R251): the registers after reset, and the edge with `rst`, which clears them and completes a handshake
on its far side only. -/

namespace Sys2Proof.Machine

/-- Settles O32: `State.resetWith` gives each register its value of R250, and the status vector is `{0, SEEK}`. -/
theorem resetStateRegisters : Obligations.ResetStateRegisters := by
  intro c s
  have hstat : stat s = 0 := by simp [s, stat, State.resetWith, Fsm.code]
  exact ⟨rfl, rfl, rfl, rfl, rfl, rfl, rfl, rfl, rfl, rfl, rfl, rfl, hstat, rfl, rfl⟩

/-- Taking a model fault writes the record only: it adds the fault of the state, if it has one (R221, R222). -/
theorem noteFault_eq (s : State) :
    s.noteFault = { s with
      faults := if s.st = .reserved then onRecord s.faults .illegalState
        else if neverAccepted s then onRecord s.faults (.misalignedWrite s.wrAddr)
        else s.faults } := by
  by_cases h7 : s.st = .reserved
  · rw [noteFault_of_reserved h7, if_pos h7]
  · rw [if_neg h7]
    by_cases hn : neverAccepted s = true
    · rw [noteFault_of_neverAccepted hn, if_pos hn]
    · rw [noteFault_of_accepted h7 (Bool.eq_false_iff.mpr hn), if_neg hn]

/-- Where the block is ready and the transport valid, no transfer completes only if the transport is empty; it then has no
byte to lose. -/
theorem rx_after_rxDone (p : Ports) (s : State) :
    (if rxDone p s then s.rx.tail else s.rx) = if rxReady s && p.rxValid then s.rx.tail else s.rx := by
  cases hv : p.rxValid
  · simp [rxDone, offered, hv]
  · cases hrx : s.rx <;> simp [rxDone, offered, hv, hrx]

/-- An RX transfer completes in states where neither other port is on (R101). -/
theorem no_other_of_rxDone {p : Ports} {s : State} (h : rxDone p s = true) :
    txDone p s = false ∧ memDone p s = false := by
  obtain hst | hst | hst | hst := rxReady_iff.mp (Bool.and_eq_true_iff.mp h).1 <;>
    simp [txDone, txValid, memDone, memValid, hst]

theorem not_memDone_of_txDone {p : Ports} {s : State} (h : txDone p s = true) : memDone p s = false := by
  have hst := txValid_iff.mp (Bool.and_eq_true_iff.mp h).1
  simp [memDone, memValid, hst]

/-- The far side of R251, port by port: each takes part in its own transfer, and no two complete. -/
theorem farSide_eq (p : Ports) (s : State) :
    farSide p s = { s with
      mem := if memDone p s then memWrite s.cfg s.wrAddr s.wrData s.mem else s.mem
      rx := if rxDone p s then s.rx.tail else s.rx
      out := s.out ++ (if txDone p s then [.tx (txData s)]
        else if memDone p s then [.write s.wrAddr s.wrData] else []) } := by
  unfold farSide
  cases hrx : rxDone p s with
  | true =>
    obtain ⟨htx, hmem⟩ := no_other_of_rxDone hrx
    simp [htx, hmem, State.dropRx]
  | false =>
    cases htx : txDone p s with
    | true => simp [not_memDone_of_txDone htx, State.giveTx]
    | false => cases hmem : memDone p s <;> simp [State.acceptWrite]

/-- Settles O31: the edge is the record of a fault, the far side of each port, and the cleared registers. -/
theorem resetEdgeClearsRegisters : Obligations.ResetEdgeClearsRegisters := by
  intro s p rest hi hrst written
  rw [step_of_reset hi hrst, noteFault_eq, resetEdge, farSide_eq, rx_after_rxDone]
  rfl

end Sys2Proof.Machine
end
